-- ==== Sys2Proof/Word.lean ====
section
/-! DEFINITION. The word types of the machine: bytes, 16-bit words and the widths of the instruction fields. -/

namespace Sys2Proof

/-- A memory cell or a general register: 8 bits, unsigned (10_state.md R11, 20_memory.md R31). -/
abbrev Byte := BitVec 8

/-- An instruction word, I, pc, a stack slot: 16 bits (00_scope.md R7). -/
abbrev Word := BitVec 16

/-- A 4-bit field: `x`, `y`, `n` or `op` (30_encoding.md R51). -/
abbrev Nibble := BitVec 4

/-- The 12-bit address operand `nnn` (30_encoding.md R51). -/
abbrev Addr := BitVec 12

end Sys2Proof
end

