-- ==== Sys2Proof/Config.lean ====
section
/-! DEFINITION. The parameters that the spec fixes (00_scope.md R7). The ones it leaves open with a default
(00_scope.md R8) stand in Machine/Params.lean and, for STRICT_LOW_NIBBLE, in Decode.lean. The spec leaves no
result of any instruction open, so there is no free value here. -/

namespace Sys2Proof

/-- `MEM_SIZE`: byte cells of memory, addresses 0x000 to 0xFFF. -/
@[simp] abbrev Config.memSize : Nat := 4096

/-- `STACK_DEPTH`: return-address slots. -/
@[simp] abbrev Config.stackDepth : Nat := 16

/-- `DISP_W`: display columns; the contract's `width()` (20_memory.md R43). -/
@[simp] abbrev Config.dispW : Nat := 64

/-- `DISP_H`: display rows; the contract's `height()` (20_memory.md R43). -/
@[simp] abbrev Config.dispH : Nat := 32

/-- `FONT_BASE`: first address of the font table. -/
@[simp] abbrev Config.fontBase : Nat := 0x050

/-- `FONT_LEN`: bytes of the font table. -/
@[simp] abbrev Config.fontLen : Nat := 80

/-- `PROG_BASE`: first address of the loaded program. -/
@[simp] abbrev Config.progBase : Nat := 0x200

/-- `PROG_MAX`: bytes from 0x200 to 0xFFF inclusive. -/
@[simp] abbrev Config.progMax : Nat := 3584

end Sys2Proof
end

