-- ==== Sys2Proof/Syntax.lean ====
section
/-! DEFINITION. The instruction set CH8-SUBSET-20: one constructor per row of the opcode map (30_encoding.md R55),
in the map's order. Every operand has exactly the width of its field, so every field value is an operand (R53). -/

namespace Sys2Proof

/-- The 20 instructions. A word that is none of them is no constructor: the decoder answers `Decoded.unlisted`
for it, and it executes as NOP_UNLISTED (40_step_cycle.md R76). -/
inductive Instr where
  /-- 00E0 `CLS` -/
  | cls
  /-- 1nnn `JP nnn` -/
  | jp (nnn : Addr)
  /-- 2nnn `CALL nnn` -/
  | call (nnn : Addr)
  /-- 3xkk `SE Vx, kk` -/
  | seVxKk (x : Nibble) (kk : Byte)
  /-- 4xkk `SNE Vx, kk` -/
  | sneVxKk (x : Nibble) (kk : Byte)
  /-- 5xy0 `SE Vx, Vy` -/
  | seVxVy (x y : Nibble)
  /-- 6xkk `LD Vx, kk` -/
  | ldVxKk (x : Nibble) (kk : Byte)
  /-- 7xkk `ADD Vx, kk` -/
  | addVxKk (x : Nibble) (kk : Byte)
  /-- 9xy0 `SNE Vx, Vy` -/
  | sneVxVy (x y : Nibble)
  /-- Annn `LD I, nnn` -/
  | ldINnn (nnn : Addr)
  /-- Dxyn `DRW Vx, Vy, n` -/
  | drw (x y n : Nibble)
  /-- 8xy0 `LD Vx, Vy` -/
  | ldVxVy (x y : Nibble)
  /-- 8xy1 `OR Vx, Vy` -/
  | or (x y : Nibble)
  /-- 8xy2 `AND Vx, Vy` -/
  | and (x y : Nibble)
  /-- 8xy3 `XOR Vx, Vy` -/
  | xor (x y : Nibble)
  /-- 8xy4 `ADD Vx, Vy` -/
  | addVxVy (x y : Nibble)
  /-- 8xy5 `SUB Vx, Vy` -/
  | sub (x y : Nibble)
  /-- 8xy6 `SHR Vx`; `y` is decoded and ignored (R53) -/
  | shr (x y : Nibble)
  /-- 8xy7 `SUBN Vx, Vy` -/
  | subn (x y : Nibble)
  /-- 8xyE `SHL Vx`; `y` is decoded and ignored (R53) -/
  | shl (x y : Nibble)
  deriving DecidableEq, Repr

end Sys2Proof
end

