-- ==== Sys2Proof/WellFormed.lean ====
section
/-! DEFINITION. Which instructions and which program images are well formed. -/

namespace Sys2Proof

/-- Every instruction is well formed: the operand types have exactly the fields' widths, and the spec makes every
field value legal ("every value 0 to 15 is legal, including 15 (VF) and including `x = y`", `n` = 0 included, any
`nnn`: 30_encoding.md R53). One arm per constructor, so that an instruction with a check could not be added
without one. DEDUCED (log 15). -/
def Instr.wellFormed : Instr → Bool
  | .cls => true
  | .jp _ => true
  | .call _ => true
  | .seVxKk _ _ => true
  | .sneVxKk _ _ => true
  | .seVxVy _ _ => true
  | .ldVxKk _ _ => true
  | .addVxKk _ _ => true
  | .sneVxVy _ _ => true
  | .ldINnn _ => true
  | .drw _ _ _ => true
  | .ldVxVy _ _ => true
  | .or _ _ => true
  | .and _ _ => true
  | .xor _ _ => true
  | .addVxVy _ _ => true
  | .sub _ _ => true
  | .shr _ _ => true
  | .subn _ _ => true
  | .shl _ _ => true

/-- A program image is well formed when it fits below the end of memory: "`len(PROGRAM) <= 3584` a precondition of
reset: a longer image is refused, not truncated and not wrapped" (70_reset_and_hazards.md R153). -/
def imageWellFormed (program : List Byte) : Bool := decide (program.length ≤ Config.progMax)

end Sys2Proof
end

