-- ==== Sys2Proof/Decode.lean ====
section
/-! DEFINITION. The decoder (30_encoding.md R50 to R57), the byte order of an instruction word, the rows of the opcode
map as masks and match values, and the encoder. -/

namespace Sys2Proof

/-! ### Words and bytes (30_encoding.md R50, 20_memory.md R34) -/

/-- Fetch is big-endian: the byte at the lower address gives bits 15 to 8, `(byte0 << 8) | byte1`. -/
def wordOfBytes (byte0 byte1 : Byte) : Word := (byte0.setWidth 16 <<< 8) ||| byte1.setWidth 16

/-- The two bytes of a word as memory holds them, the lower address first. -/
def bytesOfWord (w : Word) : List Byte := [w.extractLsb' 8 8, w.extractLsb' 0 8]

/-! ### The operand fields (30_encoding.md R51) -/

/-- `op` = word[15:12], "the high nibble". The decoder tests it through the masks of R55. -/
def fieldOp (w : Word) : Nibble := w.extractLsb' 12 4
/-- `x` = word[11:8]. -/
def fieldX (w : Word) : Nibble := w.extractLsb' 8 4
/-- `y` = word[7:4]. -/
def fieldY (w : Word) : Nibble := w.extractLsb' 4 4
/-- `n` = word[3:0]. -/
def fieldN (w : Word) : Nibble := w.extractLsb' 0 4
/-- `kk` = word[7:0]. -/
def fieldKk (w : Word) : Byte := w.extractLsb' 0 8
/-- `nnn` = word[11:0]. -/
def fieldNnn (w : Word) : Addr := w.extractLsb' 0 12

/-! ### The opcode map (30_encoding.md R55) -/

/-- A row of the opcode map: a word selects it exactly when `word & mask == match`. -/
structure OpcodeRow where
  mask : Word
  value : Word
  deriving DecidableEq, Repr

/-- "a word selects the row iff `word & mask == match`" (30_encoding.md R55). -/
def OpcodeRow.selects (r : OpcodeRow) (w : Word) : Bool := w &&& r.mask == r.value

/-- The default of `STRICT_LOW_NIBBLE` (00_scope.md R8): 0x5xyN and 0x9xyN with N not 0 are no-operations.
DESIGN CHOICE (the spec's decision D11), log 4. -/
def strictLowNibble : Bool := true

/-- The mask of rows 6 and 9: 0xF00F when `STRICT_LOW_NIBBLE` is true, 0xF000 when it is false (R57). -/
def skipRegisterMask (strict : Bool) : Word := if strict then 0xF00F else 0xF000

/-- The opcode map's row of an instruction, from the table of R55. -/
def Instr.row (strict : Bool) : Instr → OpcodeRow
  | .cls => ⟨0xFFFF, 0x00E0⟩
  | .jp _ => ⟨0xF000, 0x1000⟩
  | .call _ => ⟨0xF000, 0x2000⟩
  | .seVxKk _ _ => ⟨0xF000, 0x3000⟩
  | .sneVxKk _ _ => ⟨0xF000, 0x4000⟩
  | .seVxVy _ _ => ⟨skipRegisterMask strict, 0x5000⟩
  | .ldVxKk _ _ => ⟨0xF000, 0x6000⟩
  | .addVxKk _ _ => ⟨0xF000, 0x7000⟩
  | .sneVxVy _ _ => ⟨skipRegisterMask strict, 0x9000⟩
  | .ldINnn _ => ⟨0xF000, 0xA000⟩
  | .drw _ _ _ => ⟨0xF000, 0xD000⟩
  | .ldVxVy _ _ => ⟨0xF00F, 0x8000⟩
  | .or _ _ => ⟨0xF00F, 0x8001⟩
  | .and _ _ => ⟨0xF00F, 0x8002⟩
  | .xor _ _ => ⟨0xF00F, 0x8003⟩
  | .addVxVy _ _ => ⟨0xF00F, 0x8004⟩
  | .sub _ _ => ⟨0xF00F, 0x8005⟩
  | .shr _ _ => ⟨0xF00F, 0x8006⟩
  | .subn _ _ => ⟨0xF00F, 0x8007⟩
  | .shl _ _ => ⟨0xF00F, 0x800E⟩

/-- The instruction of each row of the opcode map, its operands read from the fields of `w`, in the priority order
of the decision procedure of R54: the full word, then the high nibble, then the high nibble with the low one. -/
def candidates (w : Word) : List Instr :=
  [ .cls,
    .jp (fieldNnn w), .call (fieldNnn w),
    .seVxKk (fieldX w) (fieldKk w), .sneVxKk (fieldX w) (fieldKk w),
    .ldVxKk (fieldX w) (fieldKk w), .addVxKk (fieldX w) (fieldKk w),
    .ldINnn (fieldNnn w), .drw (fieldX w) (fieldY w) (fieldN w),
    .seVxVy (fieldX w) (fieldY w), .sneVxVy (fieldX w) (fieldY w),
    .ldVxVy (fieldX w) (fieldY w), .or (fieldX w) (fieldY w), .and (fieldX w) (fieldY w),
    .xor (fieldX w) (fieldY w), .addVxVy (fieldX w) (fieldY w), .sub (fieldX w) (fieldY w),
    .shr (fieldX w) (fieldY w), .subn (fieldX w) (fieldY w), .shl (fieldX w) (fieldY w) ]

/-! ### The decoder (30_encoding.md R54) -/

/-- What a 16-bit word is: one of the 20 instructions, or unlisted (rejected by this name, and executed as the
no-operation NOP_UNLISTED: there are no illegal encodings, R56). -/
inductive Decoded where
  | instr (i : Instr)
  | unlisted
  deriving DecidableEq, Repr

/-- The first candidate whose row the word selects (R54): "Exactly one handler executes per step", or none. -/
def firstSelected (strict : Bool) (w : Word) : List Instr → Decoded
  | [] => .unlisted
  | i :: rest => if (i.row strict).selects w then .instr i else firstSelected strict w rest

/-- The decoder with `STRICT_LOW_NIBBLE` as an argument (R57). -/
def decodeWordWith (strict : Bool) (w : Word) : Decoded := firstSelected strict w (candidates w)

/-- The decoder of this machine: total, every word is an instruction or unlisted. -/
def decodeWord (w : Word) : Decoded := decodeWordWith strictLowNibble w

/-- The decoder on bytes: the meaning of the first two and the rest of the list; `none` when fewer than two are
left, since every instruction is exactly 2 bytes (R50). -/
def decodeBytes : List Byte → Option (Decoded × List Byte)
  | byte0 :: byte1 :: rest => some (decodeWord (wordOfBytes byte0 byte1), rest)
  | _ => none

/-! ### The encoder: the five formats of R52 -/

/-- Format NNN: `op` nnn. -/
def formatNnn (op : Nibble) (nnn : Addr) : Word := op ++ nnn
/-- Format XKK: `op` x kk. -/
def formatXkk (op x : Nibble) (kk : Byte) : Word := op ++ (x ++ kk)
/-- Formats XYN and XY: `op` x y n, the low nibble an operand or a secondary opcode. -/
def formatXyn (op x y n : Nibble) : Word := op ++ (x ++ (y ++ n))

/-- The word of an instruction (R52, R55). -/
def encode : Instr → Word
  | .cls => 0x00E0
  | .jp nnn => formatNnn 0x1 nnn
  | .call nnn => formatNnn 0x2 nnn
  | .seVxKk x kk => formatXkk 0x3 x kk
  | .sneVxKk x kk => formatXkk 0x4 x kk
  | .seVxVy x y => formatXyn 0x5 x y 0x0
  | .ldVxKk x kk => formatXkk 0x6 x kk
  | .addVxKk x kk => formatXkk 0x7 x kk
  | .sneVxVy x y => formatXyn 0x9 x y 0x0
  | .ldINnn nnn => formatNnn 0xA nnn
  | .drw x y n => formatXyn 0xD x y n
  | .ldVxVy x y => formatXyn 0x8 x y 0x0
  | .or x y => formatXyn 0x8 x y 0x1
  | .and x y => formatXyn 0x8 x y 0x2
  | .xor x y => formatXyn 0x8 x y 0x3
  | .addVxVy x y => formatXyn 0x8 x y 0x4
  | .sub x y => formatXyn 0x8 x y 0x5
  | .shr x y => formatXyn 0x8 x y 0x6
  | .subn x y => formatXyn 0x8 x y 0x7
  | .shl x y => formatXyn 0x8 x y 0xE

/-- The bytes of an instruction as memory holds them. -/
def encodeBytes (i : Instr) : List Byte := bytesOfWord (encode i)

/-! ### The opcode table's numbering of bits -/

/-- The instruction word whose bits are `w`, of which the table gives the low `nbits`; every bit above is 0. Bit 0 of
the table is bit 0 of the word (00_scope.md R9), and an instruction is one word. -/
def tableWord (nbits w : Nat) : Word := BitVec.ofNat 16 (w % 2 ^ nbits)

/-- The instruction that the decoder reads from a table word, laid out in the machine's byte order. -/
def decodeTableWord (nbits w : Nat) : Option Instr :=
  match decodeBytes (bytesOfWord (tableWord nbits w)) with
  | some (.instr i, _) => some i
  | some (.unlisted, _) => none
  | none => none

end Sys2Proof
end

