-- ==== Sys2Proof/Machine/Params.lean ====
section
/-! DEFINITION. The open parameters of 00_scope.md R8 that the machine uses, each at the spec's default. -/

namespace Sys2Proof.Machine

/-- `PC_RESET`, pc after reset. DESIGN CHOICE (the spec's decision D3; the source states no reset value of pc),
log 2. -/
def pcReset : Word := 0x200

/-- `FETCH_FAULT_MIN`, the smallest pc at which a step raises FetchOutOfRange. DESIGN CHOICE (the spec's decision
D7), log 3. -/
def fetchFaultMin : Word := 0xFFE

/-- `FONT`, 16 glyphs of 5 bytes, one byte per pixel row (20_memory.md R33). PRESUMED (the spec's default, from
general knowledge, decision D13), log 5: a claim that reads 0x050 to 0x09F depends on these bytes. -/
def font : List Byte :=
  [0xF0, 0x90, 0x90, 0x90, 0xF0] ++  -- 0
  [0x20, 0x60, 0x20, 0x20, 0x70] ++  -- 1
  [0xF0, 0x10, 0xF0, 0x80, 0xF0] ++  -- 2
  [0xF0, 0x10, 0xF0, 0x10, 0xF0] ++  -- 3
  [0x90, 0x90, 0xF0, 0x10, 0x10] ++  -- 4
  [0xF0, 0x80, 0xF0, 0x10, 0xF0] ++  -- 5
  [0xF0, 0x80, 0xF0, 0x90, 0xF0] ++  -- 6
  [0xF0, 0x10, 0x20, 0x40, 0x40] ++  -- 7
  [0xF0, 0x90, 0xF0, 0x90, 0xF0] ++  -- 8
  [0xF0, 0x90, 0xF0, 0x10, 0xF0] ++  -- 9
  [0xF0, 0x90, 0xF0, 0x90, 0x90] ++  -- A
  [0xE0, 0x90, 0xE0, 0x90, 0xE0] ++  -- B
  [0xF0, 0x80, 0x80, 0x80, 0xF0] ++  -- C
  [0xE0, 0x90, 0x90, 0x90, 0xE0] ++  -- D
  [0xF0, 0x80, 0xF0, 0x80, 0xF0] ++  -- E
  [0xF0, 0x80, 0xF0, 0x80, 0x80]     -- F

end Sys2Proof.Machine
end

