-- ==== Sys2Proof/Machine/State.lean ====
section
/-! DEFINITION. The architectural state (10_state.md R10), the faults (60_exceptions.md R131), and reset (R22, R150). -/

namespace Sys2Proof.Machine

/-- The three faults, "exactly three" (60_exceptions.md R131). Each is raised INTO THE FAULT LATCH of the state: the
step that raises it answers a next state, as the spec's fault entry says (R132), and the outcome `fault` of
`Host.Outcome` is never answered (log 1). Stopping so is safe: the source gives the failing cases no meaning. -/
inductive Fault where
  /-- Code 1, raised by the fetch phase of any step with `pc >= FETCH_FAULT_MIN`. Safe (log 3). -/
  | fetchOutOfRange
  /-- Code 2, raised by CALL with `sp >= 16`. Safe (log 9). -/
  | stackOverflow
  /-- Code 3, raised by DRW when a sprite row lies beyond 0xFFF. Safe (log 10). -/
  | dataReadOutOfRange
  deriving DecidableEq, Repr

/-- The reasons to give an instruction no meaning. -/
inductive Refusal where
  /-- Raised by an arm of `exec` without a meaning; there is none: every instruction of the table has its meaning.
  Safe. -/
  | notModelled (mnemonic : String)
  deriving DecidableEq, Repr

/-- What the fault latch records: the cause, and pc at the start of the step that faulted (10_state.md R20). -/
structure FaultRecord where
  cause : Fault
  atPc : Word
  deriving DecidableEq, Repr

/-- Main memory as a canonical list of (address, byte) pairs: addresses strictly rising, no entry equal to what an
unlisted address reads as (`Memory.blank`, the contents after reset without a program). -/
abbrev Memory := List Host.Cell

/-- The display bitmap: 32 rows of 64 booleans, `disp[py][px]` (10_state.md R18). -/
abbrev Disp := Vector (Vector Bool Config.dispW) Config.dispH

/-- The architectural state, "and nothing else" (10_state.md R10). -/
structure State where
  /-- V0 to VF; VF = V[15] is also the flag register (R11, R12). -/
  V : Vector Byte 16
  /-- The index register (R13). -/
  I : Word
  /-- The program counter: between steps, the address of the next instruction (R14). -/
  pc : Word
  /-- The stack pointer: the index of the next free slot, 0 to 16 (R15). DESIGN CHOICE (D4), log 7. -/
  sp : BitVec 5
  /-- The return-address slots (R16). DESIGN CHOICE of the slot's width (D5), log 8. -/
  stack : Vector Word Config.stackDepth
  /-- Main memory (R17). -/
  mem : Memory
  /-- The display bitmap (R18). DESIGN CHOICE that it is state of this machine (D12), log 12. -/
  disp : Disp
  /-- The fault latch (R20). DESIGN CHOICE (D6), log 1. -/
  fault : Option FaultRecord
  deriving DecidableEq, Repr

/-- The machine right after reset with the empty program, which is legal (10_state.md R22; 70_reset_and_hazards.md
R150, R153): registers, sp, slots zero, pixels false, pc at `PC_RESET`, no fault, memory with nothing listed (zero
but for the font table). `State.resetWith` is reset with a program. -/
def State.reset : State where
  V := Vector.replicate 16 0
  I := 0
  pc := pcReset
  sp := 0
  stack := Vector.replicate Config.stackDepth 0
  mem := []
  disp := Vector.replicate Config.dispH (Vector.replicate Config.dispW false)
  fault := none

end Sys2Proof.Machine
end

