-- ==== Sys2Proof/Machine/Ops.lean ====
section
/-! DEFINITION. The named operations over memory, registers, the stack and the display, the pc advance, fetching a
word, raising a fault, and loading a program. -/

namespace Sys2Proof.Machine

/-! ### Main memory (20_memory.md R31 to R37) -/

/-- What an address reads as that no one has written: the contents after reset (R32), the font table at 0x050 to
0x09F and zero elsewhere. -/
def Memory.blank (a : Nat) : Byte :=
  if Config.fontBase ≤ a ∧ a < Config.fontBase + Config.fontLen then font.getD (a - Config.fontBase) 0 else 0

/-- The byte listed for an address, if one is. -/
def Memory.lookup : Memory → Nat → Option Byte
  | [], _ => none
  | (b, v) :: m, a => if a = b then some v else Memory.lookup m a

/-- `MemRead(addr, 1)` (R36): `none` when `addr > 0xFFF`, where the calling rule raises the fault it names; the
address is never reduced modulo 4096. -/
def Memory.read (m : Memory) (a : Nat) : Option Byte :=
  if a < Config.memSize then some ((m.lookup a).getD (Memory.blank a)) else none

/-- Puts a byte into the list, or removes the entry when the byte is what the unlisted address reads as. -/
def Memory.insert : Memory → Nat → Byte → Memory
  | [], a, v => if v = Memory.blank a then [] else [(a, v)]
  | (b, w) :: m, a, v =>
    if a < b then (if v = Memory.blank a then (b, w) :: m else (a, v) :: (b, w) :: m)
    else if a = b then (if v = Memory.blank a then m else (a, v) :: m)
    else (b, w) :: Memory.insert m a v

/-- `MemWrite(addr, 1, v)` for addr in 0x000 to 0xFFF (R37): used by the loader only, no instruction performs it.
Outside that range there is nothing to write. -/
def Memory.write (m : Memory) (a : Nat) (v : Byte) : Memory :=
  if a < Config.memSize then m.insert a v else m

/-- Writes bytes at rising addresses from `a`: the loader's "load bytes at base address" (70_reset_and_hazards.md
R153). -/
def Memory.load (m : Memory) (a : Nat) : List Byte → Memory
  | [] => m
  | b :: bs => Memory.load (m.write a b) (a + 1) bs

/-- The `k` bytes from address `a` on, in ascending order; `none` when one of them lies beyond 0xFFF. The address is
an integer, not wrapped (44_display.md R123). -/
def Memory.readRun (m : Memory) (a : Nat) : Nat → Option (List Byte)
  | 0 => some []
  | k + 1 =>
    match m.read a, Memory.readRun m (a + 1) k with
    | some b, some bs => some (b :: bs)
    | _, _ => none

/-- The canonical form of memory. -/
abbrev Memory.wf (m : Memory) : Prop :=
  m.Pairwise (fun c d => c.1 < d.1) ∧ ∀ c ∈ m, c.1 < Config.memSize ∧ c.2 ≠ Memory.blank c.1

/-! ### Registers (10_state.md R11, R13, R14) -/

/-- `V[r]`. -/
def State.v (s : State) (r : Nibble) : Byte := s.V[r.toNat]'(r.isLt)

/-- `V[r] <- b`; no register is hardwired. -/
def State.setV (s : State) (r : Nibble) (b : Byte) : State := { s with V := s.V.set r.toNat b r.isLt }

/-- The number of VF, the flag register (10_state.md R12). -/
def vf : Nibble := 0xF

/-- `I <- w`. -/
def State.setI (s : State) (w : Word) : State := { s with I := w }

/-- `pc <- w`. -/
def State.jump (s : State) (w : Word) : State := { s with pc := w }

/-- Phase 2 of the step: "Advance pc by 2 unconditionally before executing" (40_step_cycle.md R72). -/
def State.advance (s : State) : State := { s with pc := s.pc + 2 }

/-- A skip: 2 more on pc when the condition holds (41_control_flow.md section 3). -/
def State.skipIf (s : State) (c : Bool) : State := if c then { s with pc := s.pc + 2 } else s

/-! ### The return-address stack (10_state.md R15, R16) -/

/-- `stack[k]`. -/
def State.slot (s : State) (k : Fin Config.stackDepth) : Word := s.stack[k.val]

/-- `stack[sp] <- w; sp <- sp + 1`, the post-increment push; `none` when `sp >= 16`. -/
def State.push (s : State) (w : Word) : Option State :=
  if h : s.sp.toNat < Config.stackDepth then some { s with stack := s.stack.set s.sp.toNat w h, sp := s.sp + 1 }
  else none

/-! ### The display bitmap (20_memory.md R40 to R43) -/

/-- `DispGet(px, py)`; a call outside the grid cannot be written. -/
def Disp.get (d : Disp) (px : Fin Config.dispW) (py : Fin Config.dispH) : Bool := d[py.val][px.val]

/-- `DispSet(px, py, b)`. -/
def Disp.put (d : Disp) (px : Fin Config.dispW) (py : Fin Config.dispH) (b : Bool) : Disp :=
  d.set py.val (d[py.val].set px.val b)

/-- The bitmap that `DispClear()` leaves: every pixel false. -/
def Disp.clear : Disp := Vector.replicate Config.dispH (Vector.replicate Config.dispW false)

/-- The pixel of a state's display. -/
def State.pixel (s : State) (px : Fin Config.dispW) (py : Fin Config.dispH) : Bool := s.disp.get px py

/-- The display replaced as a whole. -/
def State.setDisp (s : State) (d : Disp) : State := { s with disp := d }

/-! ### Faults (60_exceptions.md R131 to R133) -/

/-- The code of a cause (R131). DESIGN CHOICE (the spec's numbering, D18), log 19. -/
def Fault.code : Fault → Nat
  | .fetchOutOfRange => 1
  | .stackOverflow => 2
  | .dataReadOutOfRange => 3

/-- Taking a fault (R132): the latch records the cause and pc, and every other component is exactly as before the
step. It is applied to the state at the START of the step, where pc is still `a`, so nothing has to be undone
(40_step_cycle.md R75). There is no vector, no handler and NO RETURN (R133): only reset clears the latch. -/
def State.raise (s : State) (cause : Fault) : State := { s with fault := some ⟨cause, s.pc⟩ }

/-! ### Fetch (40_step_cycle.md R71) -/

/-- The word at pc; `none` where the step raises FetchOutOfRange: at `pc >= FETCH_FAULT_MIN`, or where a byte lies
beyond memory, which a legal `FETCH_FAULT_MIN` rules out. -/
def State.fetch (s : State) : Option Word :=
  if fetchFaultMin ≤ s.pc then none
  else
    match s.mem.read s.pc.toNat, s.mem.read (s.pc.toNat + 1) with
    | some byte0, some byte1 => some (wordOfBytes byte0 byte1)
    | _, _ => none

/-! ### Reset with a program (70_reset_and_hazards.md R150, R153) -/

/-- `reset(FONT, PROGRAM)` with the default font: the program is written "verbatim into Memory starting at address
0x200"; an image longer than 3584 bytes is refused. -/
def State.resetWith (program : List Byte) : Option State :=
  if imageWellFormed program then some { State.reset with mem := State.reset.mem.load Config.progBase program }
  else none

/-- The state with the two bytes of a word stored where the next fetch reads: the loader's move, for one word. -/
def State.placeWord (s : State) (w : Word) : State := { s with mem := s.mem.load s.pc.toNat (bytesOfWord w) }

end Sys2Proof.Machine
end

