-- ==== Sys2Proof/Machine/Flags.lean ====
section
/-! DEFINITION. Exact arithmetic, its narrowing to 8 bits, and every value the flag register VF takes (43_alu.md R105
to R111, 10_state.md R12). -/

namespace Sys2Proof.Machine

/-- A flag as VF holds it: 1 or 0. -/
def flagByte (c : Bool) : Byte := if c then 1 else 0

/-- `V[x] + V[y]` as an integer, 0 to 510 (R105). -/
def exactSum (p q : Byte) : Nat := p.toNat + q.toNat

/-- `p - q` as an integer, -255 to 255 (R106, R108). -/
def exactDiff (p q : Byte) : Int := (p.toNat : Int) - (q.toNat : Int)

/-- `sum mod 256`. -/
def narrowSum (sum : Nat) : Byte := BitVec.ofNat 8 sum

/-- `diff mod 256`: `diff + 256` when it is negative. -/
def narrowDiff (diff : Int) : Byte := BitVec.ofInt 8 diff

/-- Carry: 1 if `sum >= 256` (R105). -/
def carry (sum : Nat) : Bool := decide (256 ≤ sum)

/-- No borrow: 0 if `diff < 0`, else 1 (R106, R108); the flag is the success flag of a subtraction (R111). -/
def noBorrow (diff : Int) : Bool := !decide (diff < 0)

/-- The bit that a shift right is about to shift out: bit 0 (R107). -/
def shiftedOutRight (p : Byte) : Bool := p.getLsbD 0

/-- The bit that a shift left is about to shift out: bit 7 (R109). -/
def shiftedOutLeft (p : Byte) : Bool := p.getLsbD 7

end Sys2Proof.Machine
end

