-- ==== Sys2Proof/Machine/Operands.lean ====
section
/-! DEFINITION. The operand forms (30_encoding.md R53; 44_display.md R121, R124). Register operands are read by
`State.v`, the immediate `kk` is used as it is. -/

namespace Sys2Proof.Machine

/-- `nnn` zero-extended to 16 bits, an absolute address: bits 15 to 12 become 0 (R53). -/
def zextAddr (nnn : Addr) : Word := nnn.setWidth 16

/-- The start column of a sprite, `V[x] mod 64` (R121). -/
def startColumn (vx : Byte) : Nat := vx.toNat % Config.dispW

/-- The start row of a sprite, `V[y] mod 32` (R121). -/
def startRow (vy : Byte) : Nat := vy.toNat % Config.dispH

/-- The bit of a sprite byte with bit index `i` (0 to 7), "most-significant first": `b[7 - i]` (R121, R124). -/
def spriteBit (b : Byte) (i : Nat) : Bool := b.getLsbD (7 - i)

/-- The `n` sprite bytes `mem[I]` to `mem[I + n - 1]`, or `none` when one lies beyond 0xFFF (R123). Every row is
read, a clipped one too. -/
def State.spriteBytes (s : State) (n : Nibble) : Option (List Byte) := s.mem.readRun s.I.toNat n.toNat

end Sys2Proof.Machine
end

