-- ==== Sys2Proof/Machine/Alu.lean ====
section
/-! DEFINITION. Register-to-register ALU instructions (43_alu.md R100 to R109). The writes of one instruction stand in
the order of its rule, each seeing the writes before it (R100); with x = 15 the order shows. DESIGN CHOICE (D10),
log 11. -/

namespace Sys2Proof.Machine

/-- `LD Vx, Vy` (R101). -/
def execLdVxVy (x y : Nibble) (s : State) : Host.Outcome State Fault Refusal :=
  .next (s.advance.setV x (s.v y))

/-- `OR Vx, Vy` (R102): VF is not touched. -/
def execOr (x y : Nibble) (s : State) : Host.Outcome State Fault Refusal :=
  .next (s.advance.setV x (s.v x ||| s.v y))

/-- `AND Vx, Vy` (R103): VF is not touched. -/
def execAnd (x y : Nibble) (s : State) : Host.Outcome State Fault Refusal :=
  .next (s.advance.setV x (s.v x &&& s.v y))

/-- `XOR Vx, Vy` (R104): VF is not touched. -/
def execXor (x y : Nibble) (s : State) : Host.Outcome State Fault Refusal :=
  .next (s.advance.setV x (s.v x ^^^ s.v y))

/-- `ADD Vx, Vy` (R105): the sum, then the carry. -/
def execAddVxVy (x y : Nibble) (s : State) : Host.Outcome State Fault Refusal :=
  let sum := exactSum (s.v x) (s.v y)
  .next ((s.advance.setV x (narrowSum sum)).setV vf (flagByte (carry sum)))

/-- `SUB Vx, Vy` (R106): `V[x] - V[y]`, then no-borrow. -/
def execSub (x y : Nibble) (s : State) : Host.Outcome State Fault Refusal :=
  let diff := exactDiff (s.v x) (s.v y)
  .next ((s.advance.setV x (narrowDiff diff)).setV vf (flagByte (noBorrow diff)))

/-- `SUBN Vx, Vy` (R108): `V[y] - V[x]`, then no-borrow. -/
def execSubn (x y : Nibble) (s : State) : Host.Outcome State Fault Refusal :=
  let diff := exactDiff (s.v y) (s.v x)
  .next ((s.advance.setV x (narrowDiff diff)).setV vf (flagByte (noBorrow diff)))

/-- `SHR Vx` (R107): bit 0 to VF first, then the shift of V[x] as that write left it. `y` is ignored. -/
def execShr (x _y : Nibble) (s : State) : Host.Outcome State Fault Refusal :=
  let t := s.advance.setV vf (flagByte (shiftedOutRight (s.v x)))
  .next (t.setV x (t.v x >>> 1))

/-- `SHL Vx` (R109): bit 7 to VF first, then the shift of V[x] as that write left it. `y` is ignored. -/
def execShl (x _y : Nibble) (s : State) : Host.Outcome State Fault Refusal :=
  let t := s.advance.setV vf (flagByte (shiftedOutLeft (s.v x)))
  .next (t.setV x (t.v x <<< 1))

end Sys2Proof.Machine
end

