-- ==== Sys2Proof/Machine/ControlFlow.lean ====
section
/-! DEFINITION. Control flow (41_control_flow.md R80 to R85) and the words that are no instruction (40_step_cycle.md
R76). Every meaning here and in the other families is given the state at the START of the step, pc = `a`, and makes
the advance of 40_step_cycle.md R72 itself, so that a fault is raised on that very state (R75). DEDUCED, log 14. -/

namespace Sys2Proof.Machine

/-- `JP nnn` (R80): `pc <- zext_16(nnn)`. -/
def execJp (nnn : Addr) (s : State) : Host.Outcome State Fault Refusal :=
  .next (s.advance.jump (zextAddr nnn))

/-- `CALL nnn` (R81): pushes the advanced pc and jumps; StackOverflow when `sp >= 16`. DESIGN CHOICE (D8), log 9. -/
def execCall (nnn : Addr) (s : State) : Host.Outcome State Fault Refusal :=
  match s.advance.push s.advance.pc with
  | some t => .next (t.jump (zextAddr nnn))
  | none => .next (s.raise .stackOverflow)

/-- `SE Vx, kk` (R82). -/
def execSeVxKk (x : Nibble) (kk : Byte) (s : State) : Host.Outcome State Fault Refusal :=
  .next (s.advance.skipIf (s.v x == kk))

/-- `SNE Vx, kk` (R83). -/
def execSneVxKk (x : Nibble) (kk : Byte) (s : State) : Host.Outcome State Fault Refusal :=
  .next (s.advance.skipIf (s.v x != kk))

/-- `SE Vx, Vy` (R84). -/
def execSeVxVy (x y : Nibble) (s : State) : Host.Outcome State Fault Refusal :=
  .next (s.advance.skipIf (s.v x == s.v y))

/-- `SNE Vx, Vy` (R85). -/
def execSneVxVy (x y : Nibble) (s : State) : Host.Outcome State Fault Refusal :=
  .next (s.advance.skipIf (s.v x != s.v y))

/-- `NOP_UNLISTED` (40_step_cycle.md R76): "no handler fires, pc has already advanced by 2". -/
def execUnlisted (s : State) : Host.Outcome State Fault Refusal := .next s.advance

end Sys2Proof.Machine
end

