-- ==== Sys2Proof/Machine/Display.lean ====
section
/-! DEFINITION. Display instructions and the sprite-collision detector (44_display.md R120 to R125). -/

namespace Sys2Proof.Machine

/-- What drawing changes: the bitmap, and whether a collision has occurred (VF in the making). -/
structure Canvas where
  disp : Disp
  hit : Bool
  deriving DecidableEq, Repr

/-- One sprite bit at an unwrapped coordinate (R121, R125): outside the grid nothing happens; a set bit over a set
pixel clears it and is a collision, a set bit over an unset pixel sets it, a clear bit does nothing. -/
def drawBit (c : Canvas) (px py : Nat) (bit : Bool) : Canvas :=
  if h : px < Config.dispW ∧ py < Config.dispH then
    if bit then
      if c.disp.get ⟨px, h.1⟩ ⟨py, h.2⟩ then ⟨c.disp.put ⟨px, h.1⟩ ⟨py, h.2⟩ false, true⟩
      else ⟨c.disp.put ⟨px, h.1⟩ ⟨py, h.2⟩ true, c.hit⟩
    else c
  else c

/-- The bits `i` to `i + k - 1` of a sprite byte, in ascending order of bit index. -/
def drawBits (xpos py : Nat) (b : Byte) : Nat → Nat → Canvas → Canvas
  | _, 0, c => c
  | i, k + 1, c => drawBits xpos py b (i + 1) k (drawBit c (xpos + i) py (spriteBit b i))

/-- The sprite's rows from `py` down, in ascending order, eight bits each. -/
def drawRows (xpos : Nat) : Nat → List Byte → Canvas → Canvas
  | _, [], c => c
  | py, b :: bs, c => drawRows xpos (py + 1) bs (drawBits xpos py b 0 8 c)

/-- `CLS` (R120): every pixel false; VF is unchanged. -/
def execCls (s : State) : Host.Outcome State Fault Refusal :=
  .next (s.advance.setDisp Disp.clear)

/-- `DRW Vx, Vy, n` (R121): coordinates are taken before VF is reset (R122, log 11); a row beyond 0xFFF raises
DataReadOutOfRange before anything is written (R123, log 10); I is not advanced. -/
def execDrw (x y n : Nibble) (s : State) : Host.Outcome State Fault Refusal :=
  match s.spriteBytes n with
  | some rows =>
    let c := drawRows (startColumn (s.v x)) (startRow (s.v y)) rows ⟨s.disp, false⟩
    .next ((s.advance.setDisp c.disp).setV vf (flagByte c.hit))
  | none => .next (s.raise .dataReadOutOfRange)

end Sys2Proof.Machine
end

