-- ==== Sys2Proof/Machine/Immediate.lean ====
section
/-! DEFINITION. Immediate-operand instructions (42_immediate.md R90 to R92). None writes VF as a side effect. -/

namespace Sys2Proof.Machine

/-- `LD Vx, kk` (R90). -/
def execLdVxKk (x : Nibble) (kk : Byte) (s : State) : Host.Outcome State Fault Refusal :=
  .next (s.advance.setV x kk)

/-- `ADD Vx, kk` (R91): modulo 256, the carry is not reported. -/
def execAddVxKk (x : Nibble) (kk : Byte) (s : State) : Host.Outcome State Fault Refusal :=
  .next (s.advance.setV x (narrowSum (exactSum (s.v x) kk)))

/-- `LD I, nnn` (R92): bits 15 to 12 of I become 0. -/
def execLdINnn (nnn : Addr) (s : State) : Host.Outcome State Fault Refusal :=
  .next (s.advance.setI (zextAddr nnn))

end Sys2Proof.Machine
end

