-- ==== Sys2Proof/Machine/Step.lean ====
section
/-! DEFINITION. The single-step operation (40_step_cycle.md R70 to R77), and placing a word where it fetches. -/

namespace Sys2Proof.Machine

/-- One step (R70): a faulted machine does not move (R77); a fetch out of range raises FetchOutOfRange (R71); the
fetched word's instruction is executed, or NOP_UNLISTED (R76). Nothing is added around `exec`. -/
def step (s : State) : Host.Outcome State Fault Refusal :=
  match s.fault with
  | some _ => .next s
  | none =>
    match s.fetch with
    | none => .next (s.raise .fetchOutOfRange)
    | some w =>
      match decodeWord w with
      | .instr i => exec i s
      | .unlisted => execUnlisted s

/-- `s` with the table word stored at pc and pc + 1, high byte first (20_memory.md R34), and nothing else changed. It
stands for the loader's move before the first step (log 6); a machine whose latch is set, or whose pc lies at or
above `FETCH_FAULT_MIN`, fetches nothing whatever memory holds. -/
def State.withFetchWord (s : State) (nbits w : Nat) : State := s.placeWord (tableWord nbits w)

end Sys2Proof.Machine
end

