-- ==== Sys2Proof/Safety.lean ====
section
/-! DEFINITION. The terms that claims use: what is unchanged between two states, the bounds on reachable values
(10_state.md R24), what an instruction may write, and a sprite's bit over a pixel. A safe run is one whose states
record no fault (60_exceptions.md R133). -/

namespace Sys2Proof.Machine

/-- No fault is recorded: the premise and part of the conclusion of a claim about a safe run (R133). -/
abbrev State.Unfaulted (s : State) : Prop := s.fault = none

/-! ### What is unchanged -/

/-- Every general register reads as before. -/
def SameRegisters (s t : State) : Prop := ∀ r, t.v r = s.v r

/-- sp and every slot are as before. -/
def SameStack (s t : State) : Prop := t.sp = s.sp ∧ ∀ k, t.slot k = s.slot k

/-- Every byte of memory reads as before. -/
def SameMemory (s t : State) : Prop := ∀ a, t.mem.read a = s.mem.read a

/-- Every pixel is as before. -/
def SameDisplay (s t : State) : Prop := ∀ px py, t.pixel px py = s.pixel px py

/-- Everything but the general registers and pc is as before. -/
def SameBeyondRegisters (s t : State) : Prop :=
  t.I = s.I ∧ SameStack s t ∧ SameMemory s t ∧ SameDisplay s t ∧ t.fault = s.fault

/-- The same machine with other contents of the return-address slots. -/
def State.withSlots (s : State) (slots : Vector Word Config.stackDepth) : State := { s with stack := slots }

/-! ### What an instruction may write (10_state.md R11, R12, R23) -/

/-- The destination register of an instruction, if it has one. -/
def destination : Instr → Option Nibble
  | .ldVxKk x _ | .addVxKk x _ | .ldVxVy x _ | .or x _ | .and x _ | .xor x _ => some x
  | .addVxVy x _ | .sub x _ | .shr x _ | .subn x _ | .shl x _ => some x
  | .cls | .jp _ | .call _ | .seVxKk _ _ | .sneVxKk _ _ | .seVxVy _ _ | .sneVxVy _ _ | .ldINnn _ | .drw _ _ _ => none

/-- The six instructions that write VF as a side effect: "The complete list of side-effect writers" (R12). -/
def writesFlag : Instr → Bool
  | .addVxVy _ _ | .sub _ _ | .shr _ _ | .subn _ _ | .shl _ _ | .drw _ _ _ => true
  | .cls | .jp _ | .call _ | .seVxKk _ _ | .sneVxKk _ _ | .seVxVy _ _ | .sneVxVy _ _ | .ldINnn _ => false
  | .ldVxKk _ _ | .addVxKk _ _ | .ldVxVy _ _ | .or _ _ | .and _ _ | .xor _ _ => false

/-- The one instruction that writes sp and the stack (R15, R16). -/
def isCall : Instr → Bool
  | .call _ => true
  | .cls | .jp _ | .seVxKk _ _ | .sneVxKk _ _ | .seVxVy _ _ | .sneVxVy _ _ | .ldINnn _ | .drw _ _ _ => false
  | .ldVxKk _ _ | .addVxKk _ _ | .ldVxVy _ _ | .or _ _ | .and _ _ | .xor _ _ => false
  | .addVxVy _ _ | .sub _ _ | .shr _ _ | .subn _ _ | .shl _ _ => false

/-- The one instruction that writes I (R13). -/
def isLdI : Instr → Bool
  | .ldINnn _ => true
  | .cls | .jp _ | .call _ | .seVxKk _ _ | .sneVxKk _ _ | .seVxVy _ _ | .sneVxVy _ _ | .drw _ _ _ => false
  | .ldVxKk _ _ | .addVxKk _ _ | .ldVxVy _ _ | .or _ _ | .and _ _ | .xor _ _ => false
  | .addVxVy _ _ | .sub _ _ | .shr _ _ | .subn _ _ | .shl _ _ => false

/-- The two instructions that write the display (R18). -/
def writesDisplay : Instr → Bool
  | .cls | .drw _ _ _ => true
  | .jp _ | .call _ | .seVxKk _ _ | .sneVxKk _ _ | .seVxVy _ _ | .sneVxVy _ _ | .ldINnn _ => false
  | .ldVxKk _ _ | .addVxKk _ _ | .ldVxVy _ _ | .or _ _ | .and _ _ | .xor _ _ => false
  | .addVxVy _ _ | .sub _ _ | .shr _ _ | .subn _ _ | .shl _ _ => false

/-! ### Bounds on reachable values (10_state.md R24, R14 to R16, R20) -/

/-- The invariant of reachable states: memory in its canonical form; I at most 0xFFF; sp at most 16; every slot at most
0xFFF, and 0 from sp on (nothing but a push writes a slot); pc at most 0x1001; a recorded fault names the pc that the
machine stopped at. -/
structure State.Bounded (s : State) : Prop where
  memory : s.mem.wf
  index : s.I.toNat ≤ 0xFFF
  pointer : s.sp.toNat ≤ 16
  slots : ∀ k, (s.slot k).toNat ≤ 0xFFF
  free : ∀ k, s.sp.toNat ≤ k.val → s.slot k = 0
  counter : s.pc.toNat ≤ 0x1001
  latch : ∀ f, s.fault = some f → f.atPc = s.pc

/-! ### Drawing in closed form (44_display.md R124, R125) -/

/-- DRW with `n` rows at I reads nothing beyond 0xFFF (R123). -/
def State.SpriteInRange (s : State) (n : Nibble) : Prop := n.toNat = 0 ∨ s.I.toNat + (n.toNat - 1) ≤ 0xFFF

/-- The sprite's bit over a pixel: row `py - ypos` is the byte at `I + (py - ypos)`, bit 7 of it the leftmost pixel,
at `xpos`; false where the sprite does not reach. Nothing wraps. -/
def State.spriteOver (s : State) (x y n : Nibble) (px : Fin Config.dispW) (py : Fin Config.dispH) : Bool :=
  let xpos := (s.v x).toNat % 64
  let ypos := (s.v y).toNat % 32
  if xpos ≤ px.val ∧ px.val < xpos + 8 ∧ ypos ≤ py.val ∧ py.val < ypos + n.toNat then
    match s.mem.read (s.I.toNat + (py.val - ypos)) with
    | some b => b.getLsbD (7 - (px.val - xpos))
    | none => false
  else false

end Sys2Proof.Machine
end

