-- ==== Sys2Proof/Certificates/Slice0/Obligations.lean ====
section
/-! DEFINITION. The statements about the machine, from the numbered rules of spec/. In every statement about an
instruction, `exec i s` is given the state `s` at the start of the step, whose pc is the instruction's address. A word
is written as a number from its fields (30_encoding.md R51, R55), not through the encoder. -/

open Sys2Proof Sys2Proof.Machine

/-! ### Control flow (41_control_flow.md) -/

/-- 41_control_flow.md section 1. `JP nnn` (0x1nnn): pc becomes nnn, and nothing else changes; with nnn at or above `FETCH_FAULT_MIN` it is the
next step that raises FetchOutOfRange (the spec's decisions D6 and D7, logs 1 and 3). -/
def Obligations.JpSetsPcToItsOperand : Prop :=
  ∀ (nnn : Addr) (s : State),
    decodeWord (BitVec.ofNat 16 (0x1000 + nnn.toNat)) = .instr (.jp nnn) ∧
    ∃ t, exec (.jp nnn) s = .next t ∧ t.pc.toNat = nnn.toNat ∧ SameRegisters s t ∧ SameBeyondRegisters s t ∧
      (s.Unfaulted → fetchFaultMin ≤ t.pc → step t = .next (t.raise .fetchOutOfRange))

/-- 41_control_flow.md section 2. `CALL nnn` (0x2nnn) with a free slot: the address after the call is pushed on slot
sp, sp counts it, pc becomes nnn; the other slots, registers, I, memory, display and latch are unchanged. -/
def Obligations.CallPushesTheAdvancedPc : Prop :=
  ∀ (nnn : Addr) (s : State),
    decodeWord (BitVec.ofNat 16 (0x2000 + nnn.toNat)) = .instr (.call nnn) ∧
    (s.sp.toNat < 16 →
      ∃ t, exec (.call nnn) s = .next t ∧ t.pc.toNat = nnn.toNat ∧ t.sp.toNat = s.sp.toNat + 1 ∧
        (∀ k, t.slot k = if k.val = s.sp.toNat then s.pc + 2 else s.slot k) ∧
        SameRegisters s t ∧ t.I = s.I ∧ SameMemory s t ∧ SameDisplay s t ∧ t.fault = s.fault)

/-- 41_control_flow.md section 2, 60_exceptions.md section 3. `CALL` on a full stack: the latch records StackOverflow
and the address of the call, and every other component is as it was. The spec's own decision D8 (log 9). -/
def Obligations.CallOnAFullStackRaisesStackOverflow : Prop :=
  ∀ (nnn : Addr) (s : State), 16 ≤ s.sp.toNat →
    exec (.call nnn) s = .next { s with fault := some ⟨.stackOverflow, s.pc⟩ }

/-- 41_control_flow.md section 3. `SE Vx, kk` (0x3xkk): pc advances by 4 when V[x] = kk, else by 2, and nothing else changes; a skip past
`FETCH_FAULT_MIN` faults at the next fetch (the spec's decisions D6 and D7, logs 1 and 3). -/
def Obligations.SeImmediateSkipsOnEqual : Prop :=
  ∀ (x : Nibble) (kk : Byte) (s : State),
    decodeWord (BitVec.ofNat 16 (0x3000 + 0x100 * x.toNat + kk.toNat)) = .instr (.seVxKk x kk) ∧
    ∃ t, exec (.seVxKk x kk) s = .next t ∧ t.pc = (if s.v x = kk then s.pc + 4 else s.pc + 2) ∧
      SameRegisters s t ∧ SameBeyondRegisters s t ∧
      (s.Unfaulted → fetchFaultMin ≤ t.pc → step t = .next (t.raise .fetchOutOfRange))

/-- 41_control_flow.md section 3. `SNE Vx, kk` (0x4xkk): pc advances by 2 when V[x] = kk, else by 4, and nothing else changes; a skip past
`FETCH_FAULT_MIN` faults at the next fetch (the spec's decisions D6 and D7, logs 1 and 3). -/
def Obligations.SneImmediateSkipsOnNotEqual : Prop :=
  ∀ (x : Nibble) (kk : Byte) (s : State),
    decodeWord (BitVec.ofNat 16 (0x4000 + 0x100 * x.toNat + kk.toNat)) = .instr (.sneVxKk x kk) ∧
    ∃ t, exec (.sneVxKk x kk) s = .next t ∧ t.pc = (if s.v x = kk then s.pc + 2 else s.pc + 4) ∧
      SameRegisters s t ∧ SameBeyondRegisters s t ∧
      (s.Unfaulted → fetchFaultMin ≤ t.pc → step t = .next (t.raise .fetchOutOfRange))

/-- R84. `SE Vx, Vy` (0x5xy0): pc advances by 4 when V[x] = V[y] (so always when x = y), else by 2, and nothing else
changes. -/
def Obligations.SeRegisterSkipsOnEqual : Prop :=
  ∀ (x y : Nibble) (s : State),
    decodeWord (BitVec.ofNat 16 (0x5000 + 0x100 * x.toNat + 0x10 * y.toNat)) = .instr (.seVxVy x y) ∧
    ∃ t, exec (.seVxVy x y) s = .next t ∧ t.pc = (if s.v x = s.v y then s.pc + 4 else s.pc + 2) ∧
      SameRegisters s t ∧ SameBeyondRegisters s t

/-- R85. `SNE Vx, Vy` (0x9xy0): pc advances by 2 when V[x] = V[y] (so always when x = y), else by 4, and nothing else
changes. -/
def Obligations.SneRegisterSkipsOnNotEqual : Prop :=
  ∀ (x y : Nibble) (s : State),
    decodeWord (BitVec.ofNat 16 (0x9000 + 0x100 * x.toNat + 0x10 * y.toNat)) = .instr (.sneVxVy x y) ∧
    ∃ t, exec (.sneVxVy x y) s = .next t ∧ t.pc = (if s.v x = s.v y then s.pc + 2 else s.pc + 4) ∧
      SameRegisters s t ∧ SameBeyondRegisters s t

/-! ### Immediates (42_immediate.md) -/

/-- R90. `LD Vx, kk` (0x6xkk): V[x] becomes kk, x = 15 included; no other register and nothing else but pc changes. -/
def Obligations.LdImmediateLoadsVx : Prop :=
  ∀ (x : Nibble) (kk : Byte) (s : State),
    decodeWord (BitVec.ofNat 16 (0x6000 + 0x100 * x.toNat + kk.toNat)) = .instr (.ldVxKk x kk) ∧
    ∃ t, exec (.ldVxKk x kk) s = .next t ∧ t.pc = s.pc + 2 ∧
      (∀ r, t.v r = if r = x then kk else s.v r) ∧ SameBeyondRegisters s t

/-- R91. `ADD Vx, kk` (0x7xkk): V[x] becomes (V[x] + kk) mod 256, no other register (VF among them) and nothing else
but pc changes; after `LD Vx, kk` it leaves (2 * kk) mod 256. -/
def Obligations.AddImmediateWrapsWithoutAFlag : Prop :=
  ∀ (x : Nibble) (kk : Byte) (s : State),
    decodeWord (BitVec.ofNat 16 (0x7000 + 0x100 * x.toNat + kk.toNat)) = .instr (.addVxKk x kk) ∧
    (∃ t, exec (.addVxKk x kk) s = .next t ∧ t.pc = s.pc + 2 ∧
      (t.v x).toNat = ((s.v x).toNat + kk.toNat) % 256 ∧ (∀ r, r ≠ x → t.v r = s.v r) ∧ SameBeyondRegisters s t) ∧
    ∃ t u, exec (.ldVxKk x kk) s = .next t ∧ exec (.addVxKk x kk) t = .next u ∧ (u.v x).toNat = 2 * kk.toNat % 256

/-- R92. `LD I, nnn` (0xAnnn): I becomes nnn, whatever nnn is; nothing else but pc changes, and no other instruction
writes I. -/
def Obligations.LdIndexLoadsI : Prop :=
  (∀ (nnn : Addr) (s : State),
    decodeWord (BitVec.ofNat 16 (0xA000 + nnn.toNat)) = .instr (.ldINnn nnn) ∧
    ∃ t, exec (.ldINnn nnn) s = .next t ∧ t.pc = s.pc + 2 ∧ t.I.toNat = nnn.toNat ∧
      SameRegisters s t ∧ SameStack s t ∧ SameMemory s t ∧ SameDisplay s t ∧ t.fault = s.fault) ∧
  ∀ (i : Instr) (s t : State), isLdI i = false → exec i s = .next t → t.I = s.I

/-! ### The ALU (43_alu.md) -/

/-- R101. `LD Vx, Vy` (0x8xy0): V[x] becomes V[y]; no other register and nothing else but pc changes. -/
def Obligations.LdRegisterCopiesVy : Prop :=
  ∀ (x y : Nibble) (s : State),
    decodeWord (BitVec.ofNat 16 (0x8000 + 0x100 * x.toNat + 0x10 * y.toNat)) = .instr (.ldVxVy x y) ∧
    ∃ t, exec (.ldVxVy x y) s = .next t ∧ t.pc = s.pc + 2 ∧
      (∀ r, t.v r = if r = x then s.v y else s.v r) ∧ SameBeyondRegisters s t

/-- R102. `OR Vx, Vy` (0x8xy1): every bit of V[x] becomes its OR with that bit of V[y]; no other register (VF among
them) and nothing else but pc changes. -/
def Obligations.OrIsBitwiseWithoutAFlag : Prop :=
  ∀ (x y : Nibble) (s : State),
    decodeWord (BitVec.ofNat 16 (0x8001 + 0x100 * x.toNat + 0x10 * y.toNat)) = .instr (.or x y) ∧
    ∃ t, exec (.or x y) s = .next t ∧ t.pc = s.pc + 2 ∧
      (∀ k, (t.v x).getLsbD k = ((s.v x).getLsbD k || (s.v y).getLsbD k)) ∧
      (∀ r, r ≠ x → t.v r = s.v r) ∧ SameBeyondRegisters s t

/-- R103. `AND Vx, Vy` (0x8xy2): every bit of V[x] becomes its AND with that bit of V[y]; no other register (VF among
them) and nothing else but pc changes. -/
def Obligations.AndIsBitwiseWithoutAFlag : Prop :=
  ∀ (x y : Nibble) (s : State),
    decodeWord (BitVec.ofNat 16 (0x8002 + 0x100 * x.toNat + 0x10 * y.toNat)) = .instr (.and x y) ∧
    ∃ t, exec (.and x y) s = .next t ∧ t.pc = s.pc + 2 ∧
      (∀ k, (t.v x).getLsbD k = ((s.v x).getLsbD k && (s.v y).getLsbD k)) ∧
      (∀ r, r ≠ x → t.v r = s.v r) ∧ SameBeyondRegisters s t

/-- R104. `XOR Vx, Vy` (0x8xy3): every bit of V[x] becomes its exclusive or with that bit of V[y]; no other register
(VF among them) and nothing else but pc changes. -/
def Obligations.XorIsBitwiseWithoutAFlag : Prop :=
  ∀ (x y : Nibble) (s : State),
    decodeWord (BitVec.ofNat 16 (0x8003 + 0x100 * x.toNat + 0x10 * y.toNat)) = .instr (.xor x y) ∧
    ∃ t, exec (.xor x y) s = .next t ∧ t.pc = s.pc + 2 ∧
      (∀ k, (t.v x).getLsbD k = ((s.v x).getLsbD k ^^ (s.v y).getLsbD k)) ∧
      (∀ r, r ≠ x → t.v r = s.v r) ∧ SameBeyondRegisters s t

/-- R105. `ADD Vx, Vy` (0x8xy4): V[x] becomes (V[x] + V[y]) mod 256, then VF becomes the carry; with x = 15 VF ends as
the carry and the sum is lost. No other register and nothing else but pc changes. -/
def Obligations.AddRegisterWrapsAndVfIsTheCarry : Prop :=
  ∀ (x y : Nibble) (s : State),
    decodeWord (BitVec.ofNat 16 (0x8004 + 0x100 * x.toNat + 0x10 * y.toNat)) = .instr (.addVxVy x y) ∧
    ∃ t, exec (.addVxVy x y) s = .next t ∧ t.pc = s.pc + 2 ∧
      t.v 0xF#4 = (if 256 ≤ (s.v x).toNat + (s.v y).toNat then 1 else 0) ∧
      (x ≠ 0xF#4 → (t.v x).toNat = ((s.v x).toNat + (s.v y).toNat) % 256) ∧
      (∀ r, r ≠ x → r ≠ 0xF#4 → t.v r = s.v r) ∧ SameBeyondRegisters s t

/-- R106. `SUB Vx, Vy` (0x8xy5): V[x] becomes (V[x] - V[y]) mod 256, then VF becomes 0 on a borrow and 1 on none
(V[x] >= V[y] before); with x = 15 VF ends as the flag. No other register and nothing else but pc changes. -/
def Obligations.SubWrapsAndVfIsNoBorrow : Prop :=
  ∀ (x y : Nibble) (s : State),
    decodeWord (BitVec.ofNat 16 (0x8005 + 0x100 * x.toNat + 0x10 * y.toNat)) = .instr (.sub x y) ∧
    ∃ t, exec (.sub x y) s = .next t ∧ t.pc = s.pc + 2 ∧
      t.v 0xF#4 = (if (s.v y).toNat ≤ (s.v x).toNat then 1 else 0) ∧
      (x ≠ 0xF#4 → ((t.v x).toNat : Int) = ((s.v x).toNat - (s.v y).toNat : Int) % 256) ∧
      (∀ r, r ≠ x → r ≠ 0xF#4 → t.v r = s.v r) ∧ SameBeyondRegisters s t

/-- R108. `SUBN Vx, Vy` (0x8xy7): V[x] becomes (V[y] - V[x]) mod 256, then VF becomes 0 on a borrow and 1 on none
(V[y] >= V[x] before); with x = 15 VF ends as the flag. No other register and nothing else but pc changes. -/
def Obligations.SubnWrapsAndVfIsNoBorrow : Prop :=
  ∀ (x y : Nibble) (s : State),
    decodeWord (BitVec.ofNat 16 (0x8007 + 0x100 * x.toNat + 0x10 * y.toNat)) = .instr (.subn x y) ∧
    ∃ t, exec (.subn x y) s = .next t ∧ t.pc = s.pc + 2 ∧
      t.v 0xF#4 = (if (s.v x).toNat ≤ (s.v y).toNat then 1 else 0) ∧
      (x ≠ 0xF#4 → ((t.v x).toNat : Int) = ((s.v y).toNat - (s.v x).toNat : Int) % 256) ∧
      (∀ r, r ≠ x → r ≠ 0xF#4 → t.v r = s.v r) ∧ SameBeyondRegisters s t

/-- 43_alu.md sections 1 and 4. `SHR Vx` (0x8xy6, any y): V[x] becomes floor(V[x] / 2) and VF the old bit 0; with
x = 15 VF ends 0, which is the spec's own decision D10 (log 11). No other register and nothing else but pc changes, and y
has no part in it. -/
def Obligations.ShrHalvesVxAndVfIsBitZero : Prop :=
  ∀ (x y : Nibble) (s : State),
    decodeWord (BitVec.ofNat 16 (0x8006 + 0x100 * x.toNat + 0x10 * y.toNat)) = .instr (.shr x y) ∧
    ∃ t, exec (.shr x y) s = .next t ∧ t.pc = s.pc + 2 ∧
      (x ≠ 0xF#4 → (t.v x).toNat = (s.v x).toNat / 2 ∧ (t.v 0xF#4).toNat = (s.v x).toNat % 2) ∧
      (x = 0xF#4 → t.v 0xF#4 = 0) ∧
      (∀ r, r ≠ x → r ≠ 0xF#4 → t.v r = s.v r) ∧ SameBeyondRegisters s t

/-- 43_alu.md sections 1 and 4. `SHL Vx` (0x8xyE, any y): V[x] becomes (2 * V[x]) mod 256 and VF the old bit 7; with
x = 15 VF ends 2 if bit 7 was set, else 0, which is the spec's own decision D10 (log 11). No other register and nothing
else but pc changes, and y has no part in it. -/
def Obligations.ShlDoublesVxAndVfIsBitSeven : Prop :=
  ∀ (x y : Nibble) (s : State),
    decodeWord (BitVec.ofNat 16 (0x800E + 0x100 * x.toNat + 0x10 * y.toNat)) = .instr (.shl x y) ∧
    ∃ t, exec (.shl x y) s = .next t ∧ t.pc = s.pc + 2 ∧
      (x ≠ 0xF#4 → (t.v x).toNat = 2 * (s.v x).toNat % 256 ∧ (t.v 0xF#4).toNat = (s.v x).toNat / 128) ∧
      (x = 0xF#4 → t.v 0xF#4 = if 128 ≤ (s.v 0xF#4).toNat then 2 else 0) ∧
      (∀ r, r ≠ x → r ≠ 0xF#4 → t.v r = s.v r) ∧ SameBeyondRegisters s t

/-- 43_alu.md section 5. VF ends a flag-writing ALU instruction as 0 or 1, "except 8xyE with x = 15, which can leave 2"
(the exception is the spec's decision D10, log 11). -/
def Obligations.AluFlagsAreZeroOrOne : Prop :=
  ∀ (x y : Nibble) (s t : State),
    (exec (.addVxVy x y) s = .next t ∨ exec (.sub x y) s = .next t ∨ exec (.subn x y) s = .next t ∨
      exec (.shr x y) s = .next t ∨ (x ≠ 0xF#4 ∧ exec (.shl x y) s = .next t) → (t.v 0xF#4).toNat ≤ 1) ∧
    (exec (.shl 0xF#4 y) s = .next t → t.v 0xF#4 = 0 ∨ t.v 0xF#4 = 2)

/-! ### The display (44_display.md) -/

/-- R120. `CLS` (0x00E0): every pixel becomes false; no register (VF among them) and nothing else but pc changes. It is
matched on the full word: every other word 0x0nnn is unlisted. -/
def Obligations.ClsClearsEveryPixel : Prop :=
  decodeWord 0x00E0 = .instr .cls ∧
  (∀ w, decodeWord w = .instr .cls → w = 0x00E0) ∧ (∀ w, fieldOp w = 0x0 → w ≠ 0x00E0 → decodeWord w = .unlisted) ∧
  ∀ s : State, ∃ t, exec .cls s = .next t ∧ t.pc = s.pc + 2 ∧ (∀ px py, t.pixel px py = false) ∧
    SameRegisters s t ∧ t.I = s.I ∧ SameStack s t ∧ SameMemory s t ∧ t.fault = s.fault

/-- 44_display.md section 2. `DRW Vx, Vy, n` (0xDxyn) with its rows inside memory is exclusive-or compositing of the
clipped sprite: every pixel becomes its exclusive or with the sprite's bit over it, VF becomes 1 exactly when a sprite bit
of 1 lay over a set pixel, else 0; the other registers, I, the stack, memory and the latch are unchanged. That V[x] and V[y]
are read before VF is written is the spec's decision D10 (log 11). -/
def Obligations.DrwCompositesTheClippedSprite : Prop :=
  ∀ (x y n : Nibble) (s : State),
    decodeWord (BitVec.ofNat 16 (0xD000 + 0x100 * x.toNat + 0x10 * y.toNat + n.toNat)) = .instr (.drw x y n) ∧
    (s.SpriteInRange n →
      ∃ t, exec (.drw x y n) s = .next t ∧ t.pc = s.pc + 2 ∧
        (∀ px py, t.pixel px py = (s.pixel px py ^^ s.spriteOver x y n px py)) ∧
        (t.v 0xF#4 = 1 ∧ (∃ px py, s.pixel px py = true ∧ s.spriteOver x y n px py = true) ∨
          t.v 0xF#4 = 0 ∧ ∀ px py, s.pixel px py = true → s.spriteOver x y n px py = false) ∧
        (∀ r, r ≠ 0xF#4 → t.v r = s.v r) ∧ t.I = s.I ∧ SameStack s t ∧ SameMemory s t ∧ t.fault = s.fault)

/-- 44_display.md section 2, 60_exceptions.md section 3. `DRW` with a row beyond 0xFFF, a clipped one included: the latch
records DataReadOutOfRange and the address of the draw, and every other component is as it was: no pixel, no VF. The spec's
own decision D9 (log 10). -/
def Obligations.DrwBeyondMemoryRaisesDataReadOutOfRange : Prop :=
  ∀ (x y n : Nibble) (s : State), 0 < n.toNat → 0xFFF < s.I.toNat + (n.toNat - 1) →
    exec (.drw x y n) s = .next { s with fault := some ⟨.dataReadOutOfRange, s.pc⟩ }

/-- 44_display.md section 2, corner cases. Drawing the same sprite twice at the same place restores the display, and the
second draw sets VF to 1 exactly when the sprite had an unclipped bit of 1 over a pixel that was unset before the first (over
a clear area: any unclipped bit of 1). The coordinates must not be in VF, which the first draw overwrites. -/
def Obligations.DrawingTwiceRestoresTheDisplay : Prop :=
  ∀ (x y n : Nibble) (s : State), x ≠ 0xF#4 → y ≠ 0xF#4 → s.SpriteInRange n →
    ∃ t u, exec (.drw x y n) s = .next t ∧ exec (.drw x y n) t = .next u ∧ SameDisplay s u ∧
      (u.v 0xF#4 = 1 ↔ ∃ px py, s.spriteOver x y n px py = true ∧ s.pixel px py = false)

/-! ### Unlisted words and the decoder (30_encoding.md, 40_step_cycle.md) -/

/-- R76. A word that is no instruction executes as NOP_UNLISTED: pc + 2 and nothing else; 0x0000, 0x00EE and 0xFx0A are
such words. -/
def Obligations.UnlistedWordsOnlyAdvancePc : Prop :=
  (∀ (s : State) (w : Word), s.Unfaulted → s.fetch = some w → decodeWord w = .unlisted →
    ∃ t, step s = .next t ∧ t.pc = s.pc + 2 ∧ SameRegisters s t ∧ SameBeyondRegisters s t) ∧
  decodeWord 0x0000 = .unlisted ∧ decodeWord 0x00EE = .unlisted ∧
  ∀ x : Nibble, decodeWord (BitVec.ofNat 16 (0xF00A + 0x100 * x.toNat)) = .unlisted

/-- 30_encoding.md section 7. The unlisted words are exactly those of the table: op 0 but 0x00E0, op 5 and 9 with a low
nibble other than 0 (the spec's decision D11, log 4), op 8 with low nibble 8, 9, A, B, C, D or F, and op B, C, E and F. -/
def Obligations.UnlistedWordsAreThoseOfTheTable : Prop :=
  ∀ w : Word, decodeWord w = .unlisted ↔
    (fieldOp w = 0x0 ∧ w ≠ 0x00E0) ∨ ((fieldOp w = 0x5 ∨ fieldOp w = 0x9) ∧ fieldN w ≠ 0) ∨
    (fieldOp w = 0x8 ∧ fieldN w ∈ [0x8#4, 0x9#4, 0xA#4, 0xB#4, 0xC#4, 0xD#4, 0xF#4]) ∨
    fieldOp w ∈ [0xB#4, 0xC#4, 0xE#4, 0xF#4]

/-- R51. The fields of a word, as numbers, and their overlap: kk = y * 16 + n and nnn = x * 256 + kk. -/
def Obligations.FieldsAreTheirBits : Prop :=
  ∀ w : Word,
    (fieldOp w).toNat = w.toNat / 4096 ∧ (fieldX w).toNat = w.toNat / 256 % 16 ∧
    (fieldY w).toNat = w.toNat / 16 % 16 ∧ (fieldN w).toNat = w.toNat % 16 ∧
    (fieldKk w).toNat = w.toNat % 256 ∧ (fieldNnn w).toNat = w.toNat % 4096 ∧
    (fieldKk w).toNat = (fieldY w).toNat * 16 + (fieldN w).toNat ∧
    (fieldNnn w).toNat = (fieldX w).toNat * 256 + (fieldKk w).toNat

/-- 30_encoding.md section 5. The patterns are pairwise disjoint, whichever way `STRICT_LOW_NIBBLE` is set: two instructions
whose rows a word selects have the same constructor; of the twenty candidates of a word, two that it selects are one and the
same; so the order of the tests cannot change the result: the candidates tested in any order decode the word alike. -/
def Obligations.OpcodeRowsAreDisjoint : Prop :=
  ∀ (strict : Bool) (w : Word),
    (∀ i j : Instr, (i.row strict).selects w = true → (j.row strict).selects w = true → i.ctorIdx = j.ctorIdx) ∧
    (∀ i ∈ candidates w, ∀ j ∈ candidates w,
      (i.row strict).selects w = true → (j.row strict).selects w = true → i = j) ∧
    ∀ l : List Instr, l.Perm (candidates w) → firstSelected strict w l = decodeWordWith strict w

/-- 30_encoding.md section 7, on the words 0x5xyN and 0x9xyN with N not 0: no-operations with `STRICT_LOW_NIBBLE` true,
`SE Vx, Vy` and `SNE Vx, Vy` with it false; this machine has it true, the spec's decision D11 (log 4). -/
def Obligations.LowNibbleOfTheRegisterSkips : Prop :=
  ∀ (x y n : Nibble), n ≠ 0 →
    decodeWordWith true (BitVec.ofNat 16 (0x5000 + 0x100 * x.toNat + 0x10 * y.toNat + n.toNat)) = .unlisted ∧
    decodeWordWith true (BitVec.ofNat 16 (0x9000 + 0x100 * x.toNat + 0x10 * y.toNat + n.toNat)) = .unlisted ∧
    decodeWordWith false (BitVec.ofNat 16 (0x5000 + 0x100 * x.toNat + 0x10 * y.toNat + n.toNat)) =
      .instr (.seVxVy x y) ∧
    decodeWordWith false (BitVec.ofNat 16 (0x9000 + 0x100 * x.toNat + 0x10 * y.toNat + n.toNat)) =
      .instr (.sneVxVy x y)

/-- 30_encoding.md sections 2, 3, 6. Every instruction's word decodes to it, with every operand, through bytes as well:
no bit of an encoding is dropped. -/
def Obligations.DecodeOfEncodeIsTheInstruction : Prop :=
  ∀ (i : Instr) (rest : List Byte), i.wellFormed = true →
    decodeWord (encode i) = .instr i ∧ decodeBytes (encodeBytes i ++ rest) = some (.instr i, rest)

/-- 30_encoding.md sections 5, 6. A word that decodes to an instruction is that instruction's word: each word has one
meaning and each instruction one word. It holds of the decoder with `STRICT_LOW_NIBBLE` true, the spec's decision D11
(log 4): with it false 0x5011 would be a second word of `SE V0, V1`. -/
def Obligations.EncodeOfDecodeIsTheWord : Prop :=
  ∀ (w : Word) (i : Instr), decodeWord w = .instr i → encode i = w

/-- 95_test_vectors.md T10. Words written out from the opcode map decode as its table says. -/
def Obligations.SampleWordsDecode : Prop :=
  [0x00E0#16, 0x1ABC#16, 0x2FFF#16, 0x3AFF#16, 0x4B00#16, 0x5AB0#16, 0x6C42#16, 0x7D01#16, 0x8AB4#16, 0x8ABE#16,
    0x9AB0#16, 0xA2F0#16, 0xD12A#16].map decodeWord =
  [.instr .cls, .instr (.jp 0xABC), .instr (.call 0xFFF), .instr (.seVxKk 0xA 0xFF), .instr (.sneVxKk 0xB 0x00),
    .instr (.seVxVy 0xA 0xB), .instr (.ldVxKk 0xC 0x42), .instr (.addVxKk 0xD 0x01), .instr (.addVxVy 0xA 0xB),
    .instr (.shl 0xA 0xB), .instr (.sneVxVy 0xA 0xB), .instr (.ldINnn 0x2F0), .instr (.drw 0x1 0x2 0xA)]

/-! ### The step (40_step_cycle.md, 60_exceptions.md) -/

/-- 40_step_cycle.md sections 1, 2, 4. When the two bytes at pc decode to a well-formed instruction, and pc is below
`FETCH_FAULT_MIN` and no fault is recorded, the step is `exec` of it: nothing is added around it. -/
def Obligations.StepRunsTheDecodedInstruction : Prop :=
  ∀ (s : State) (byte0 byte1 : Byte) (i : Instr), s.Unfaulted → s.pc < fetchFaultMin →
    s.mem.read s.pc.toNat = some byte0 → s.mem.read (s.pc.toNat + 1) = some byte1 →
    decodeBytes [byte0, byte1] = some (.instr i, []) → i.wellFormed = true → step s = exec i s

/-- 20_memory.md sections 3, 4; 40_step_cycle.md section 2. Below `FETCH_FAULT_MIN` (0xFFE, the spec's decision D7, log 3)
the fetched word is 256 times the byte at pc plus the byte at pc + 1, at odd pc as at even. -/
def Obligations.FetchIsBigEndianAtAnyPc : Prop :=
  ∀ s : State, s.pc.toNat < 0xFFE →
    ∃ byte0 byte1 w, s.mem.read s.pc.toNat = some byte0 ∧ s.mem.read (s.pc.toNat + 1) = some byte1 ∧
      s.fetch = some w ∧ w.toNat = 256 * byte0.toNat + byte1.toNat

/-- 00_scope.md section 6. Every step of every state answers a next state: no word is refused, and a fault is taken into
the latch (log 1). -/
def Obligations.EveryStepAnswersANextState : Prop :=
  ∀ s : State, ∃ t, step s = .next t

/-- 60_exceptions.md sections 2, 5; the spec's decisions D6 to D9 (logs 1, 3, 9, 10). The three faults and their
conditions, complete: a step of an unfaulted machine records FetchOutOfRange exactly with pc at or above
`FETCH_FAULT_MIN`, StackOverflow exactly for a CALL with sp >= 16, DataReadOutOfRange exactly for a DRW with n > 0 and
I + n - 1 > 0xFFF, and otherwise none. -/
def Obligations.FaultConditionsAreComplete : Prop :=
  ∀ s t : State, s.Unfaulted → step s = .next t →
    (t.fault = some ⟨.fetchOutOfRange, s.pc⟩ ∧ fetchFaultMin ≤ s.pc) ∨
    (t.fault = some ⟨.stackOverflow, s.pc⟩ ∧
      ∃ w nnn, s.fetch = some w ∧ decodeWord w = .instr (.call nnn) ∧ 16 ≤ s.sp.toNat) ∨
    (t.fault = some ⟨.dataReadOutOfRange, s.pc⟩ ∧
      ∃ w x y n, s.fetch = some w ∧ decodeWord w = .instr (.drw x y n) ∧ ¬ s.SpriteInRange n) ∨
    (t.fault = none ∧ ∃ w, s.fetch = some w ∧
      (∀ nnn, decodeWord w = .instr (.call nnn) → s.sp.toNat < 16) ∧
      ∀ x y n, decodeWord w = .instr (.drw x y n) → s.SpriteInRange n)

/-- 40_step_cycle.md section 5, 60_exceptions.md section 3; the spec's decision D6 (log 1). Faults are precise: a step that
records a fault changes nothing but the latch, which names the pc at which the step began. -/
def Obligations.FaultsArePrecise : Prop :=
  ∀ s t : State, s.Unfaulted → step s = .next t → ∀ f, t.fault = some f →
    t = { s with fault := some f } ∧ f.atPc = s.pc

/-- 40_step_cycle.md section 7, 60_exceptions.md section 4; the spec's decision D6 (log 1). A machine with a fault recorded
does not move. -/
def Obligations.AFaultedMachineDoesNotMove : Prop :=
  ∀ s : State, s.fault ≠ none → step s = .next s

/-! ### Rules of the whole machine (10_state.md, 20_memory.md) -/

/-- 10_state.md section 13. What each instruction may write: no instruction writes memory; only CALL the stack and sp;
only LD I, nnn writes I; only CLS and DRW write the display. -/
def Obligations.OnlyTheNamedInstructionsWrite : Prop :=
  ∀ (i : Instr) (s t : State), exec i s = .next t →
    t.mem = s.mem ∧ (isCall i = false → SameStack s t) ∧ (isLdI i = false → t.I = s.I) ∧
    (writesDisplay i = false → SameDisplay s t)

/-- 10_state.md sections 2, 3. A general register changes only if it is the instruction's destination, or is VF and the
instruction is one of the six that write VF as a side effect. -/
def Obligations.OnlyTheDestinationAndVfChange : Prop :=
  ∀ (i : Instr) (s t : State) (r : Nibble), exec i s = .next t →
    destination i ≠ some r → (writesFlag i = true → r ≠ 0xF#4) → t.v r = s.v r

/-- 10_state.md section 5. pc after an instruction that does not fault: nnn for JP and CALL, a + 2 or a + 4 for a skip,
a + 2 for every other; after one that faults (the spec's decision D6, log 1) it is a. -/
def Obligations.PcAfterAnInstruction : Prop :=
  ∀ (i : Instr) (s t : State), s.Unfaulted → exec i s = .next t →
    (t.fault ≠ none → t.pc = s.pc) ∧
    (t.fault = none →
      match i with
      | .jp nnn | .call nnn => t.pc.toNat = nnn.toNat
      | .seVxKk _ _ | .sneVxKk _ _ | .seVxVy _ _ | .sneVxVy _ _ => t.pc = s.pc + 2 ∨ t.pc = s.pc + 4
      | .cls | .ldVxKk _ _ | .addVxKk _ _ | .ldINnn _ | .drw _ _ _ | .ldVxVy _ _ => t.pc = s.pc + 2
      | .or _ _ | .and _ _ | .xor _ _ | .addVxVy _ _ | .sub _ _ | .shr _ _ | .subn _ _ | .shl _ _ => t.pc = s.pc + 2)

/-- 20_memory.md section 6. No step changes main memory, so self-modifying code cannot occur. -/
def Obligations.NoStepWritesMemory : Prop :=
  ∀ s t : State, step s = .next t → t.mem = s.mem

/-- 10_state.md section 6, 70_reset_and_hazards.md section 3. Calls are never undone: a step leaves sp as it is or counts
it up by one, and every slot below sp keeps its value. -/
def Obligations.CallsAreNeverUndone : Prop :=
  ∀ s t : State, step s = .next t →
    (t.sp.toNat = s.sp.toNat ∨ t.sp.toNat = s.sp.toNat + 1) ∧
    ∀ k : Fin Config.stackDepth, k.val < s.sp.toNat → t.slot k = s.slot k

/-- 10_state.md section 6. The slots are write-only from the program's point of view: two machines that differ in slots
alone go to states that differ in slots alone. -/
def Obligations.SlotsCannotBeObserved : Prop :=
  ∀ (s t : State) (slots : Vector Word Config.stackDepth), step s = .next t →
    ∃ slots', step (s.withSlots slots) = .next (t.withSlots slots')

/-- 10_state.md sections 10, 14; 60_exceptions.md section 3. The bounds on reachable values are an invariant: every step from
a state that meets them leads to a state that meets them. The bounds on pc and the slots rest on the spec's decision D7 (log
3), the bound on sp on D8 (log 9), and that a recorded fault names the pc on D6 (log 1). -/
def Obligations.EveryStepKeepsTheBounds : Prop :=
  ∀ s t : State, s.Bounded → step s = .next t → t.Bounded

/-! ### Reset and loading (10_state.md, 70_reset_and_hazards.md) -/

/-- 10_state.md section 12. Reset leaves every register, I, sp and every slot zero, every pixel false, memory zero outside
the font table, pc at 0x200 and no fault; the last two are the spec's decisions D3 and D6 (logs 2, 1). -/
def Obligations.ResetClearsTheMachine : Prop :=
  (∀ r, State.reset.v r = 0) ∧ State.reset.I = 0 ∧ State.reset.sp = 0 ∧ (∀ k, State.reset.slot k = 0) ∧
  (∀ px py, State.reset.pixel px py = false) ∧
  (∀ a, a < 4096 → ¬(0x050 ≤ a ∧ a ≤ 0x09F) → State.reset.mem.read a = some 0) ∧
  State.reset.pc = 0x200 ∧ State.reset.fault = none

/-- 10_state.md sections 12, 14. The state after reset meets the bounds; that its pc is 0x200 is the spec's decision D3 (log 2),
and that no fault is recorded D6 (log 1). -/
def Obligations.ResetMeetsTheBounds : Prop := State.reset.Bounded

/-- 70_reset_and_hazards.md sections 1, 2. Reset with a program of at most 3584 bytes writes it verbatim at 0x200 and
changes nothing else: a byte of the image reads as the image's, every other as after reset; the state meets the bounds. A
longer image is refused (the spec's decision D14, log 6). -/
def Obligations.ResetLoadsTheProgramVerbatim : Prop :=
  ∀ program : List Byte,
    (program.length ≤ 3584 →
      ∃ s, State.resetWith program = some s ∧ s.Bounded ∧
        (∀ k, k < program.length → s.mem.read (0x200 + k) = program[k]?) ∧
        (∀ a, ¬(0x200 ≤ a ∧ a < 0x200 + program.length) → s.mem.read a = State.reset.mem.read a) ∧
        SameRegisters State.reset s ∧ s.I = 0 ∧ SameStack State.reset s ∧ SameDisplay State.reset s ∧
        s.pc = State.reset.pc ∧ s.fault = none) ∧
    (3584 < program.length → State.resetWith program = none)

/-- 20_memory.md sections 5, 6, 7. A read after a write: the written address gives the byte, every other address what it gave
before; it holds of every memory in the canonical form. Every address up to 0xFFF gives a byte, and no address beyond 0xFFF
gives one: no byte is wrapped round to. That a read beyond 0xFFF gives no byte, where the source leaves it undefined, is the spec's
decisions D7 (log 3) for the fetch and D9 (log 10) for the sprite's rows. -/
def Obligations.ReadAfterWrite : Prop :=
  (∀ (m : Memory) (a b : Nat) (v : Byte), m.wf → a < 4096 →
    (m.write a v).read b = if b = a then some v else m.read b) ∧
  ∀ (m : Memory) (b : Nat), (b < 4096 → ∃ v, m.read b = some v) ∧ (4096 ≤ b → m.read b = none)

/-- 20_memory.md section 3, 40_step_cycle.md section 1. A word placed where the next fetch reads is the instruction the next
step runs (log 6): for an unfaulted machine with pc below `FETCH_FAULT_MIN` and memory in the canonical form. -/
def Obligations.APlacedWordIsRunByTheNextStep : Prop :=
  ∀ (s : State) (i : Instr), s.Unfaulted → s.pc < fetchFaultMin → s.mem.wf →
    step (s.withFetchWord 16 (encode i).toNat) = exec i (s.withFetchWord 16 (encode i).toNat)
end

