-- ==== Sys2Proof/Laws/Decode.lean ====
section
/-! SUPPORT. The formats as numbers, and the fields of a formatted word (30_encoding.md R51, R52),
and everything the decoder can answer (R54). -/

namespace Sys2Proof

theorem formatNnn_toNat (op : Nibble) (nnn : Addr) : (formatNnn op nnn).toNat = op.toNat * 0x1000 + nnn.toNat := by
  have h := nnn.isLt
  simp only [formatNnn, BitVec.toNat_append]
  rw [← Nat.shiftLeft_add_eq_or_of_lt h]; simp [Nat.shiftLeft_eq]

theorem formatXkk_toNat (op x : Nibble) (kk : Byte) :
    (formatXkk op x kk).toNat = op.toNat * 0x1000 + x.toNat * 0x100 + kk.toNat := by
  have h := kk.isLt
  have h2 := (x ++ kk).isLt
  simp only [formatXkk, BitVec.toNat_append] at h2 ⊢
  rw [← Nat.shiftLeft_add_eq_or_of_lt h2, ← Nat.shiftLeft_add_eq_or_of_lt h]; simp [Nat.shiftLeft_eq]; omega

theorem formatXyn_toNat (op x y n : Nibble) :
    (formatXyn op x y n).toNat = op.toNat * 0x1000 + x.toNat * 0x100 + y.toNat * 0x10 + n.toNat := by
  have h := n.isLt
  have h2 := (y ++ n).isLt
  have h3 := (x ++ (y ++ n)).isLt
  simp only [formatXyn, BitVec.toNat_append] at h2 h3 ⊢
  rw [← Nat.shiftLeft_add_eq_or_of_lt h3, ← Nat.shiftLeft_add_eq_or_of_lt h2, ← Nat.shiftLeft_add_eq_or_of_lt h]
  simp [Nat.shiftLeft_eq]; omega

/-! The fields of a word as numbers. -/

theorem fieldOp_toNat (w : Word) : (fieldOp w).toNat = w.toNat / 0x1000 % 16 := by
  simp [fieldOp, BitVec.extractLsb'_toNat, Nat.shiftRight_eq_div_pow]
theorem fieldX_toNat (w : Word) : (fieldX w).toNat = w.toNat / 0x100 % 16 := by
  simp [fieldX, BitVec.extractLsb'_toNat, Nat.shiftRight_eq_div_pow]
theorem fieldY_toNat (w : Word) : (fieldY w).toNat = w.toNat / 0x10 % 16 := by
  simp [fieldY, BitVec.extractLsb'_toNat, Nat.shiftRight_eq_div_pow]
theorem fieldN_toNat (w : Word) : (fieldN w).toNat = w.toNat % 16 := by
  simp [fieldN, BitVec.extractLsb'_toNat]
theorem fieldKk_toNat (w : Word) : (fieldKk w).toNat = w.toNat % 256 := by
  simp [fieldKk, BitVec.extractLsb'_toNat]
theorem fieldNnn_toNat (w : Word) : (fieldNnn w).toNat = w.toNat % 4096 := by
  simp [fieldNnn, BitVec.extractLsb'_toNat]

/-- The word of a fetch as a number: big-endian. -/
theorem wordOfBytes_toNat (byte0 byte1 : Byte) : (wordOfBytes byte0 byte1).toNat = byte0.toNat * 256 + byte1.toNat := by
  have h0 := byte0.isLt
  have h1 := byte1.isLt
  simp only [wordOfBytes, BitVec.toNat_or, BitVec.toNat_shiftLeft, BitVec.toNat_setWidth]
  rw [Nat.mod_eq_of_lt (a := byte0.toNat) (by omega), Nat.mod_eq_of_lt (a := byte1.toNat) (by omega),
    Nat.mod_eq_of_lt (by simp [Nat.shiftLeft_eq]; omega), ← Nat.shiftLeft_add_eq_or_of_lt h1]
  simp [Nat.shiftLeft_eq]

/-! The fields of a formatted word. -/

@[simp] theorem fieldOp_formatNnn (op : Nibble) (nnn : Addr) : fieldOp (formatNnn op nnn) = op := by
  apply BitVec.eq_of_toNat_eq; have := op.isLt; have := nnn.isLt; rw [fieldOp_toNat, formatNnn_toNat]; omega
@[simp] theorem fieldOp_formatXkk (op x : Nibble) (kk : Byte) : fieldOp (formatXkk op x kk) = op := by
  apply BitVec.eq_of_toNat_eq; have := op.isLt; have := x.isLt; have := kk.isLt
  rw [fieldOp_toNat, formatXkk_toNat]; omega
@[simp] theorem fieldOp_formatXyn (op x y n : Nibble) : fieldOp (formatXyn op x y n) = op := by
  apply BitVec.eq_of_toNat_eq; have := op.isLt; have := x.isLt; have := y.isLt; have := n.isLt
  rw [fieldOp_toNat, formatXyn_toNat]; omega
@[simp] theorem fieldNnn_formatNnn (op : Nibble) (nnn : Addr) : fieldNnn (formatNnn op nnn) = nnn := by
  apply BitVec.eq_of_toNat_eq; have := nnn.isLt; rw [fieldNnn_toNat, formatNnn_toNat]; omega
@[simp] theorem fieldX_formatXkk (op x : Nibble) (kk : Byte) : fieldX (formatXkk op x kk) = x := by
  apply BitVec.eq_of_toNat_eq; have := kk.isLt; have := x.isLt; rw [fieldX_toNat, formatXkk_toNat]; omega
@[simp] theorem fieldKk_formatXkk (op x : Nibble) (kk : Byte) : fieldKk (formatXkk op x kk) = kk := by
  apply BitVec.eq_of_toNat_eq; have := kk.isLt; rw [fieldKk_toNat, formatXkk_toNat]; omega
@[simp] theorem fieldX_formatXyn (op x y n : Nibble) : fieldX (formatXyn op x y n) = x := by
  apply BitVec.eq_of_toNat_eq; have := x.isLt; have := y.isLt; have := n.isLt
  rw [fieldX_toNat, formatXyn_toNat]; omega
@[simp] theorem fieldY_formatXyn (op x y n : Nibble) : fieldY (formatXyn op x y n) = y := by
  apply BitVec.eq_of_toNat_eq; have := y.isLt; have := n.isLt; rw [fieldY_toNat, formatXyn_toNat]; omega
@[simp] theorem fieldN_formatXyn (op x y n : Nibble) : fieldN (formatXyn op x y n) = n := by
  apply BitVec.eq_of_toNat_eq; have := n.isLt; rw [fieldN_toNat, formatXyn_toNat]; omega

/-! A mask of whole nibbles keeps the nibbles it covers, and the masked word tells the nibbles. -/

/-- The high-nibble mask (R54 (b)). -/
theorem and_F000 (w : Word) : w &&& 0xF000 = formatXyn (fieldOp w) 0 0 0 := by
  apply BitVec.eq_of_getLsbD_eq; intro i hi
  simp only [formatXyn, fieldOp, BitVec.getLsbD_and, BitVec.getLsbD_append, BitVec.getLsbD_extractLsb']
  interval_cases i <;> simp

/-- The high-and-low-nibble mask (R54 (c)). -/
theorem and_F00F (w : Word) : w &&& 0xF00F = formatXyn (fieldOp w) 0 0 (fieldN w) := by
  apply BitVec.eq_of_getLsbD_eq; intro i hi
  simp only [formatXyn, fieldOp, fieldN, BitVec.getLsbD_and, BitVec.getLsbD_append, BitVec.getLsbD_extractLsb']
  interval_cases i <;> simp

/-- A row with the high-nibble mask is selected by the high nibble. -/
theorem selects_F000_iff (op : Nibble) (v w : Word) (hv : v = formatXyn op 0 0 0) :
    (OpcodeRow.mk 0xF000 v).selects w = true ↔ fieldOp w = op := by
  subst hv
  rw [OpcodeRow.selects, beq_iff_eq, and_F000, ← BitVec.toNat_inj, ← BitVec.toNat_inj, formatXyn_toNat, formatXyn_toNat]
  simp

/-- A row with the high-and-low-nibble mask is selected by both. -/
theorem selects_F00F_iff (op n : Nibble) (v w : Word) (hv : v = formatXyn op 0 0 n) :
    (OpcodeRow.mk 0xF00F v).selects w = true ↔ fieldOp w = op ∧ fieldN w = n := by
  subst hv
  have h1 := (fieldN w).isLt
  have h2 := n.isLt
  rw [OpcodeRow.selects, beq_iff_eq, and_F00F, ← BitVec.toNat_inj, ← BitVec.toNat_inj, ← BitVec.toNat_inj,
    formatXyn_toNat, formatXyn_toNat]
  simp; omega

/-! A word written as a number from its fields is the formatted word. -/

theorem ofNat_eq_formatNnn (op : Nibble) (nnn : Addr) (c : Nat) (h : c = op.toNat * 0x1000) :
    BitVec.ofNat 16 (c + nnn.toNat) = formatNnn op nnn := by
  apply BitVec.eq_of_toNat_eq; rw [formatNnn_toNat]
  have := nnn.isLt; have := op.isLt; simp; omega

theorem ofNat_eq_formatXkk (op x : Nibble) (kk : Byte) (c : Nat) (h : c = op.toNat * 0x1000) :
    BitVec.ofNat 16 (c + 0x100 * x.toNat + kk.toNat) = formatXkk op x kk := by
  apply BitVec.eq_of_toNat_eq; rw [formatXkk_toNat]
  have := kk.isLt; have := x.isLt; have := op.isLt; simp; omega

theorem ofNat_eq_formatXyn (op x y n : Nibble) (c : Nat) (h : c = op.toNat * 0x1000) :
    BitVec.ofNat 16 (c + 0x100 * x.toNat + 0x10 * y.toNat + n.toNat) = formatXyn op x y n := by
  apply BitVec.eq_of_toNat_eq; rw [formatXyn_toNat]
  have := y.isLt; have := x.isLt; have := op.isLt; have := n.isLt; simp; omega

theorem ofNat_eq_formatXy (op x y n : Nibble) (c : Nat) (h : c = op.toNat * 0x1000 + n.toNat) :
    BitVec.ofNat 16 (c + 0x100 * x.toNat + 0x10 * y.toNat) = formatXyn op x y n := by
  apply BitVec.eq_of_toNat_eq; rw [formatXyn_toNat]
  have := y.isLt; have := x.isLt; have := op.isLt; have := n.isLt; simp; omega

/-! ### What the decoder answers -/

/-- The decoder answers one of its candidates, whose row the word selects. -/
theorem firstSelected_eq_instr {strict : Bool} {w : Word} {i : Instr} {l : List Instr}
    (h : firstSelected strict w l = .instr i) : i ∈ l ∧ (i.row strict).selects w = true := by
  induction l with
  | nil => simp [firstSelected] at h
  | cons j l ih =>
    simp only [firstSelected] at h
    split_ifs at h with hj
    · obtain rfl : j = i := by simpa using h
      exact ⟨by simp, hj⟩
    · exact ⟨List.mem_cons_of_mem _ (ih h).1, (ih h).2⟩

/-- The decoder answers `unlisted` exactly where the word selects no candidate. -/
theorem firstSelected_eq_unlisted_iff {strict : Bool} {w : Word} {l : List Instr} :
    firstSelected strict w l = .unlisted ↔ ∀ i ∈ l, (i.row strict).selects w = false := by
  induction l with
  | nil => simp [firstSelected]
  | cons j l ih =>
    simp only [firstSelected, List.forall_mem_cons]
    split_ifs with hj
    · simp [hj]
    · simp [hj, ih]

/-- The decoder by the nibbles of the word: the decision procedure of R54 with the masks read as nibbles. -/
theorem decodeWord_by_fields (w : Word) :
   decodeWord w =
     if w = 0x00E0 then .instr .cls
     else if fieldOp w = 1 then .instr (.jp (fieldNnn w))
     else if fieldOp w = 2 then .instr (.call (fieldNnn w))
     else if fieldOp w = 3 then .instr (.seVxKk (fieldX w) (fieldKk w))
     else if fieldOp w = 4 then .instr (.sneVxKk (fieldX w) (fieldKk w))
     else if fieldOp w = 6 then .instr (.ldVxKk (fieldX w) (fieldKk w))
     else if fieldOp w = 7 then .instr (.addVxKk (fieldX w) (fieldKk w))
     else if fieldOp w = 0xA then .instr (.ldINnn (fieldNnn w))
     else if fieldOp w = 0xD then .instr (.drw (fieldX w) (fieldY w) (fieldN w))
     else if fieldOp w = 5 ∧ fieldN w = 0 then .instr (.seVxVy (fieldX w) (fieldY w))
     else if fieldOp w = 9 ∧ fieldN w = 0 then .instr (.sneVxVy (fieldX w) (fieldY w))
     else if fieldOp w = 8 ∧ fieldN w = 0 then .instr (.ldVxVy (fieldX w) (fieldY w))
     else if fieldOp w = 8 ∧ fieldN w = 1 then .instr (.or (fieldX w) (fieldY w))
     else if fieldOp w = 8 ∧ fieldN w = 2 then .instr (.and (fieldX w) (fieldY w))
     else if fieldOp w = 8 ∧ fieldN w = 3 then .instr (.xor (fieldX w) (fieldY w))
     else if fieldOp w = 8 ∧ fieldN w = 4 then .instr (.addVxVy (fieldX w) (fieldY w))
     else if fieldOp w = 8 ∧ fieldN w = 5 then .instr (.sub (fieldX w) (fieldY w))
     else if fieldOp w = 8 ∧ fieldN w = 6 then .instr (.shr (fieldX w) (fieldY w))
     else if fieldOp w = 8 ∧ fieldN w = 7 then .instr (.subn (fieldX w) (fieldY w))
     else if fieldOp w = 8 ∧ fieldN w = 0xE then .instr (.shl (fieldX w) (fieldY w))
     else .unlisted := by
  have h1 := fun op v hv => selects_F000_iff op v w hv
  have h2 := fun op n v hv => selects_F00F_iff op n v w hv
  have hf : ∀ v, (OpcodeRow.mk 0xFFFF v).selects w = true ↔ w = v := by
    intro v; rw [OpcodeRow.selects, beq_iff_eq, show (0xFFFF : Word) = BitVec.allOnes 16 by decide, BitVec.and_allOnes]
  simp only [decodeWord, decodeWordWith, candidates, firstSelected, Instr.row, skipRegisterMask, strictLowNibble, if_true, hf,
    h1 1 0x1000 (by decide), h1 2 0x2000 (by decide), h1 3 0x3000 (by decide), h1 4 0x4000 (by decide),
    h1 6 0x6000 (by decide), h1 7 0x7000 (by decide), h1 0xA 0xA000 (by decide), h1 0xD 0xD000 (by decide),
    h2 5 0 0x5000 (by decide), h2 9 0 0x9000 (by decide), h2 8 0 0x8000 (by decide), h2 8 1 0x8001 (by decide), h2 8 2 0x8002 (by decide),
    h2 8 3 0x8003 (by decide), h2 8 4 0x8004 (by decide), h2 8 5 0x8005 (by decide), h2 8 6 0x8006 (by decide), h2 8 7 0x8007 (by decide),
    h2 8 0xE 0x800E (by decide)]

end Sys2Proof
end

