-- ==== Sys2Proof/Laws/Memory.lean ====
section
/-! SUPPORT. Memory: every operation keeps the canonical form, and what a run of reads answers. -/

namespace Sys2Proof.Machine

/-- An entry after `insert` is the new one, listed because it differs from the blank byte, or an old one. -/
theorem Memory.mem_insert {c : Host.Cell} {m : Memory} {a : Nat} {v : Byte} (h : c ∈ m.insert a v) :
    (c = (a, v) ∧ v ≠ Memory.blank a) ∨ c ∈ m := by
  induction m with
  | nil => simp only [Memory.insert] at h; split at h <;> simp_all
  | cons d m ih =>
    obtain ⟨b, w⟩ := d
    simp only [Memory.insert] at h
    split_ifs at h <;> simp only [List.mem_cons] at h ⊢ <;> tauto

theorem Memory.insert_wf {m : Memory} {a : Nat} {v : Byte} (ha : a < Config.memSize) (h : m.wf) :
    (m.insert a v).wf := by
  refine ⟨?_, fun c hc => ?_⟩
  · replace h := h.1
    induction m with
    | nil => simp only [Memory.insert]; split <;> simp
    | cons d m ih =>
      obtain ⟨b, w⟩ := d
      obtain ⟨hd, hm⟩ := List.pairwise_cons.1 h
      simp only [Memory.insert]
      split_ifs with hab hv hba hv
      · exact h
      · refine List.pairwise_cons.2 ⟨fun c hc => ?_, h⟩
        rcases List.mem_cons.1 hc with rfl | hc
        · exact hab
        · exact hab.trans (hd c hc)
      · exact hm
      · exact List.pairwise_cons.2 ⟨fun c hc => hba ▸ hd c hc, hm⟩
      · refine List.pairwise_cons.2 ⟨fun c hc => ?_, ih hm⟩
        rcases Memory.mem_insert hc with ⟨rfl, -⟩ | hc
        · exact (show b < a by omega)
        · exact hd c hc
  · rcases Memory.mem_insert hc with ⟨rfl, hv⟩ | hc
    · exact ⟨ha, hv⟩
    · exact h.2 c hc

/-- A write keeps the canonical form. -/
theorem Memory.write_wf {m : Memory} (h : m.wf) (a : Nat) (v : Byte) : (m.write a v).wf := by
  unfold Memory.write
  split
  · exact Memory.insert_wf ‹_› h
  · exact h

/-- Loading a program keeps the canonical form. -/
theorem Memory.load_wf {m : Memory} (h : m.wf) (a : Nat) (bs : List Byte) : (m.load a bs).wf := by
  induction bs generalizing m a with
  | nil => exact h
  | cons b bs ih => exact ih (Memory.write_wf h a b) (a + 1)

/-- Memory after reset is in the canonical form. -/
theorem Memory.reset_wf : State.reset.mem.wf := ⟨List.Pairwise.nil, by simp [State.reset]⟩

/-- Placing a word keeps the canonical form. -/
theorem State.placeWord_wf {s : State} (h : s.mem.wf) (w : Word) : (s.placeWord w).mem.wf :=
  Memory.load_wf h _ _

/-- A read answers a byte exactly inside the address space. -/
theorem Memory.read_eq_none_iff (m : Memory) (a : Nat) : m.read a = none ↔ 4096 ≤ a := by
  simp only [Memory.read, Config.memSize]; split <;> simp <;> omega

/-- A run of reads stops exactly when its last address lies beyond memory. -/
theorem Memory.readRun_eq_none_iff (m : Memory) (a k : Nat) :
    m.readRun a k = none ↔ 0 < k ∧ 4096 ≤ a + (k - 1) := by
  induction k generalizing a with
  | zero => simp [Memory.readRun]
  | succ k ih =>
    have hr := Memory.read_eq_none_iff m a
    have hk := ih (a + 1)
    simp only [Memory.readRun]
    cases h1 : m.read a <;> cases h2 : m.readRun (a + 1) k <;> simp only [h1, h2] at hr hk ⊢ <;> simp at hr hk ⊢ <;> omega

/-- A run of reads answers as many bytes as it was asked for, each the read of its own address. -/
theorem Memory.readRun_spec {m : Memory} {a k : Nat} {bs : List Byte} (h : m.readRun a k = some bs) :
    bs.length = k ∧ ∀ i, i < k → m.read (a + i) = bs[i]? := by
  induction k generalizing a bs with
  | zero => simp only [Memory.readRun, Option.some.injEq] at h; subst h; simp
  | succ k ih =>
    simp only [Memory.readRun] at h
    cases h1 : m.read a <;> cases h2 : m.readRun (a + 1) k <;> simp only [h1, h2, reduceCtorEq, Option.some.injEq] at h
    subst h
    obtain ⟨hl, hr⟩ := ih h2
    refine ⟨by simp [hl], fun i hi => ?_⟩
    cases i with
    | zero => simpa using h1
    | succ i =>
      have := hr i (by omega)
      rw [show a + (i + 1) = a + 1 + i by omega]
      simpa using this

end Sys2Proof.Machine
end

