-- ==== Sys2Proof/Laws/State.lean ====
section
/-! SUPPORT. One lemma per field of the state per update, each true by unfolding the update, and the field each
reader looks at. -/

namespace Sys2Proof.Machine

variable (s : State)

@[simp] theorem State.setV_V (r : Nibble) (b : Byte) : (s.setV r b).V = s.V.set r.toNat b r.isLt := rfl
@[simp] theorem State.setV_I (r : Nibble) (b : Byte) : (s.setV r b).I = s.I := rfl
@[simp] theorem State.setV_pc (r : Nibble) (b : Byte) : (s.setV r b).pc = s.pc := rfl
@[simp] theorem State.setV_sp (r : Nibble) (b : Byte) : (s.setV r b).sp = s.sp := rfl
@[simp] theorem State.setV_stack (r : Nibble) (b : Byte) : (s.setV r b).stack = s.stack := rfl
@[simp] theorem State.setV_mem (r : Nibble) (b : Byte) : (s.setV r b).mem = s.mem := rfl
@[simp] theorem State.setV_disp (r : Nibble) (b : Byte) : (s.setV r b).disp = s.disp := rfl
@[simp] theorem State.setV_fault (r : Nibble) (b : Byte) : (s.setV r b).fault = s.fault := rfl

@[simp] theorem State.setI_V (w : Word) : (s.setI w).V = s.V := rfl
@[simp] theorem State.setI_I (w : Word) : (s.setI w).I = w := rfl
@[simp] theorem State.setI_pc (w : Word) : (s.setI w).pc = s.pc := rfl
@[simp] theorem State.setI_sp (w : Word) : (s.setI w).sp = s.sp := rfl
@[simp] theorem State.setI_stack (w : Word) : (s.setI w).stack = s.stack := rfl
@[simp] theorem State.setI_mem (w : Word) : (s.setI w).mem = s.mem := rfl
@[simp] theorem State.setI_disp (w : Word) : (s.setI w).disp = s.disp := rfl
@[simp] theorem State.setI_fault (w : Word) : (s.setI w).fault = s.fault := rfl

@[simp] theorem State.jump_V (w : Word) : (s.jump w).V = s.V := rfl
@[simp] theorem State.jump_I (w : Word) : (s.jump w).I = s.I := rfl
@[simp] theorem State.jump_pc (w : Word) : (s.jump w).pc = w := rfl
@[simp] theorem State.jump_sp (w : Word) : (s.jump w).sp = s.sp := rfl
@[simp] theorem State.jump_stack (w : Word) : (s.jump w).stack = s.stack := rfl
@[simp] theorem State.jump_mem (w : Word) : (s.jump w).mem = s.mem := rfl
@[simp] theorem State.jump_disp (w : Word) : (s.jump w).disp = s.disp := rfl
@[simp] theorem State.jump_fault (w : Word) : (s.jump w).fault = s.fault := rfl

@[simp] theorem State.advance_V : s.advance.V = s.V := rfl
@[simp] theorem State.advance_I : s.advance.I = s.I := rfl
@[simp] theorem State.advance_pc : s.advance.pc = s.pc + 2 := rfl
@[simp] theorem State.advance_sp : s.advance.sp = s.sp := rfl
@[simp] theorem State.advance_stack : s.advance.stack = s.stack := rfl
@[simp] theorem State.advance_mem : s.advance.mem = s.mem := rfl
@[simp] theorem State.advance_disp : s.advance.disp = s.disp := rfl
@[simp] theorem State.advance_fault : s.advance.fault = s.fault := rfl

@[simp] theorem State.setDisp_V (d : Disp) : (s.setDisp d).V = s.V := rfl
@[simp] theorem State.setDisp_I (d : Disp) : (s.setDisp d).I = s.I := rfl
@[simp] theorem State.setDisp_pc (d : Disp) : (s.setDisp d).pc = s.pc := rfl
@[simp] theorem State.setDisp_sp (d : Disp) : (s.setDisp d).sp = s.sp := rfl
@[simp] theorem State.setDisp_stack (d : Disp) : (s.setDisp d).stack = s.stack := rfl
@[simp] theorem State.setDisp_mem (d : Disp) : (s.setDisp d).mem = s.mem := rfl
@[simp] theorem State.setDisp_disp (d : Disp) : (s.setDisp d).disp = d := rfl
@[simp] theorem State.setDisp_fault (d : Disp) : (s.setDisp d).fault = s.fault := rfl

@[simp] theorem State.raise_V (c : Fault) : (s.raise c).V = s.V := rfl
@[simp] theorem State.raise_I (c : Fault) : (s.raise c).I = s.I := rfl
@[simp] theorem State.raise_pc (c : Fault) : (s.raise c).pc = s.pc := rfl
@[simp] theorem State.raise_sp (c : Fault) : (s.raise c).sp = s.sp := rfl
@[simp] theorem State.raise_stack (c : Fault) : (s.raise c).stack = s.stack := rfl
@[simp] theorem State.raise_mem (c : Fault) : (s.raise c).mem = s.mem := rfl
@[simp] theorem State.raise_disp (c : Fault) : (s.raise c).disp = s.disp := rfl
@[simp] theorem State.raise_fault (c : Fault) : (s.raise c).fault = some ⟨c, s.pc⟩ := rfl

@[simp] theorem State.placeWord_V (w : Word) : (s.placeWord w).V = s.V := rfl
@[simp] theorem State.placeWord_I (w : Word) : (s.placeWord w).I = s.I := rfl
@[simp] theorem State.placeWord_pc (w : Word) : (s.placeWord w).pc = s.pc := rfl
@[simp] theorem State.placeWord_sp (w : Word) : (s.placeWord w).sp = s.sp := rfl
@[simp] theorem State.placeWord_stack (w : Word) : (s.placeWord w).stack = s.stack := rfl
@[simp] theorem State.placeWord_mem (w : Word) : (s.placeWord w).mem = s.mem.load s.pc.toNat (bytesOfWord w) := rfl
@[simp] theorem State.placeWord_disp (w : Word) : (s.placeWord w).disp = s.disp := rfl
@[simp] theorem State.placeWord_fault (w : Word) : (s.placeWord w).fault = s.fault := rfl

/-! A skip writes pc at most. -/

@[simp] theorem State.skipIf_V (c : Bool) : (s.skipIf c).V = s.V := by cases c <;> rfl
@[simp] theorem State.skipIf_I (c : Bool) : (s.skipIf c).I = s.I := by cases c <;> rfl
@[simp] theorem State.skipIf_pc (c : Bool) : (s.skipIf c).pc = if c then s.pc + 2 else s.pc := by
  cases c <;> rfl
@[simp] theorem State.skipIf_sp (c : Bool) : (s.skipIf c).sp = s.sp := by cases c <;> rfl
@[simp] theorem State.skipIf_stack (c : Bool) : (s.skipIf c).stack = s.stack := by cases c <;> rfl
@[simp] theorem State.skipIf_mem (c : Bool) : (s.skipIf c).mem = s.mem := by cases c <;> rfl
@[simp] theorem State.skipIf_disp (c : Bool) : (s.skipIf c).disp = s.disp := by cases c <;> rfl
@[simp] theorem State.skipIf_fault (c : Bool) : (s.skipIf c).fault = s.fault := by cases c <;> rfl

/-! The readers `v`, `slot` and `pixel` see one field each. -/

@[simp] theorem State.setV_slot (r : Nibble) (b : Byte) (k : Fin Config.stackDepth) : (s.setV r b).slot k = s.slot k := rfl
@[simp] theorem State.setV_pixel (r : Nibble) (b : Byte) (px : Fin Config.dispW) (py : Fin Config.dispH) :
    (s.setV r b).pixel px py = s.pixel px py := rfl
@[simp] theorem State.setI_v (w : Word) (q : Nibble) : (s.setI w).v q = s.v q := rfl
@[simp] theorem State.setI_slot (w : Word) (k : Fin Config.stackDepth) : (s.setI w).slot k = s.slot k := rfl
@[simp] theorem State.setI_pixel (w : Word) (px : Fin Config.dispW) (py : Fin Config.dispH) :
    (s.setI w).pixel px py = s.pixel px py := rfl
@[simp] theorem State.jump_v (w : Word) (q : Nibble) : (s.jump w).v q = s.v q := rfl
@[simp] theorem State.jump_slot (w : Word) (k : Fin Config.stackDepth) : (s.jump w).slot k = s.slot k := rfl
@[simp] theorem State.jump_pixel (w : Word) (px : Fin Config.dispW) (py : Fin Config.dispH) :
    (s.jump w).pixel px py = s.pixel px py := rfl
@[simp] theorem State.advance_v (q : Nibble) : s.advance.v q = s.v q := rfl
@[simp] theorem State.advance_slot (k : Fin Config.stackDepth) : s.advance.slot k = s.slot k := rfl
@[simp] theorem State.advance_pixel (px : Fin Config.dispW) (py : Fin Config.dispH) :
    s.advance.pixel px py = s.pixel px py := rfl
@[simp] theorem State.setDisp_v (d : Disp) (q : Nibble) : (s.setDisp d).v q = s.v q := rfl
@[simp] theorem State.setDisp_slot (d : Disp) (k : Fin Config.stackDepth) : (s.setDisp d).slot k = s.slot k := rfl
@[simp] theorem State.raise_v (c : Fault) (q : Nibble) : (s.raise c).v q = s.v q := rfl
@[simp] theorem State.raise_slot (c : Fault) (k : Fin Config.stackDepth) : (s.raise c).slot k = s.slot k := rfl
@[simp] theorem State.raise_pixel (c : Fault) (px : Fin Config.dispW) (py : Fin Config.dispH) :
    (s.raise c).pixel px py = s.pixel px py := rfl
@[simp] theorem State.placeWord_v (w : Word) (q : Nibble) : (s.placeWord w).v q = s.v q := rfl
@[simp] theorem State.placeWord_slot (w : Word) (k : Fin Config.stackDepth) : (s.placeWord w).slot k = s.slot k := rfl
@[simp] theorem State.placeWord_pixel (w : Word) (px : Fin Config.dispW) (py : Fin Config.dispH) :
    (s.placeWord w).pixel px py = s.pixel px py := rfl
@[simp] theorem State.skipIf_v (c : Bool) (q : Nibble) : (s.skipIf c).v q = s.v q := by cases c <;> rfl
@[simp] theorem State.skipIf_slot (c : Bool) (k : Fin Config.stackDepth) : (s.skipIf c).slot k = s.slot k := by cases c <;> rfl
@[simp] theorem State.skipIf_pixel (c : Bool) (px : Fin Config.dispW) (py : Fin Config.dispH) :
    (s.skipIf c).pixel px py = s.pixel px py := by cases c <;> rfl

/-- A register reads back what was written to it, and every other register reads as before. -/
@[simp] theorem State.setV_v (r q : Nibble) (b : Byte) : (s.setV r b).v q = if q = r then b else s.v q := by
  simp only [State.v, State.setV, Vector.getElem_set, ← BitVec.toNat_inj, eq_comm]

@[simp] theorem State.setDisp_pixel (d : Disp) (px : Fin Config.dispW) (py : Fin Config.dispH) :
    (s.setDisp d).pixel px py = d.get px py := rfl

end Sys2Proof.Machine
end

