-- ==== Sys2Proof/Laws/Ops.lean ====
section
/-! SUPPORT. Everything each shared operation can do, said once: the push, the fetch, reading a sprite, the display
primitives. -/

namespace Sys2Proof.Machine

/-- A push that succeeds wrote slot sp and counted it. -/
theorem State.push_eq_some_iff {s t : State} {w : Word} :
    s.push w = some t ↔
      ∃ h : s.sp.toNat < 16, t = { s with stack := s.stack.set s.sp.toNat w h, sp := s.sp + 1 } := by
  simp only [State.push, Config.stackDepth]
  split <;> simp_all [eq_comm]

/-- A push fails exactly on a full stack. -/
theorem State.push_eq_none_iff {s : State} {w : Word} : s.push w = none ↔ 16 ≤ s.sp.toNat := by
  simp only [State.push, Config.stackDepth]
  split <;> simp <;> omega

/-- The slots after a push. -/
theorem State.push_slot {s t : State} {w : Word} (h : s.push w = some t) (k : Fin Config.stackDepth) :
    t.slot k = if s.sp.toNat = k.val then w else s.slot k := by
  obtain ⟨_, rfl⟩ := State.push_eq_some_iff.1 h
  simp [State.slot, Vector.getElem_set]

/-- sp after a push, without wrap. -/
theorem State.push_sp {s t : State} {w : Word} (h : s.push w = some t) : t.sp.toNat = s.sp.toNat + 1 := by
  obtain ⟨h16, rfl⟩ := State.push_eq_some_iff.1 h
  simp [BitVec.toNat_add]; omega

/-- The fetch answers no word exactly from `FETCH_FAULT_MIN` on. -/
theorem State.fetch_eq_none_iff {s : State} : s.fetch = none ↔ fetchFaultMin ≤ s.pc := by
  unfold State.fetch
  split_ifs with h
  · simp [h]
  · have hpc : s.pc.toNat < 0xFFE := by simpa [fetchFaultMin, BitVec.le_def] using h
    have h0 := (Memory.read_eq_none_iff s.mem s.pc.toNat)
    have h1 := (Memory.read_eq_none_iff s.mem (s.pc.toNat + 1))
    cases e0 : s.mem.read s.pc.toNat <;> cases e1 : s.mem.read (s.pc.toNat + 1) <;> simp_all <;> omega

/-- A word that was fetched is the two bytes at pc, the lower address first. -/
theorem State.fetch_eq_some {s : State} {w : Word} (h : s.fetch = some w) :
    s.pc < fetchFaultMin ∧ ∃ byte0 byte1, s.mem.read s.pc.toNat = some byte0 ∧
      s.mem.read (s.pc.toNat + 1) = some byte1 ∧ w = wordOfBytes byte0 byte1 := by
  unfold State.fetch at h
  split_ifs at h with hpc
  refine ⟨BitVec.not_le.1 hpc, ?_⟩
  split at h <;> simp_all

/-- A sprite cannot be read exactly when one of its rows lies beyond memory. -/
theorem State.spriteBytes_eq_none_iff {s : State} {n : Nibble} :
    s.spriteBytes n = none ↔ 0 < n.toNat ∧ 0xFFF < s.I.toNat + (n.toNat - 1) := by
  rw [State.spriteBytes, Memory.readRun_eq_none_iff]; omega

/-- DispSet changes the one pixel. -/
@[simp] theorem Disp.put_get (d : Disp) (px qx : Fin Config.dispW) (py qy : Fin Config.dispH) (b : Bool) :
    (d.put px py b).get qx qy = if px = qx ∧ py = qy then b else d.get qx qy := by
  simp only [Disp.put, Disp.get, Vector.getElem_set, Fin.ext_iff]
  by_cases hy : py.val = qy.val <;> by_cases hx : px.val = qx.val <;> simp [hx, hy]

/-- DispClear leaves every pixel false. -/
@[simp] theorem Disp.clear_get (px : Fin Config.dispW) (py : Fin Config.dispH) : Disp.clear.get px py = false := by
  simp [Disp.clear, Disp.get]

end Sys2Proof.Machine
end

