-- ==== Sys2Proof/Laws/Draw.lean ====
section
/-! SUPPORT. Drawing one sprite bit: the pixel becomes its exclusive or with the bit, and a collision is remembered
(44_display.md R125). -/

namespace Sys2Proof.Machine

/-- The pixels after one sprite bit. -/
theorem drawBit_get (c : Canvas) (px py : Nat) (bit : Bool) (qx : Fin Config.dispW) (qy : Fin Config.dispH) :
    (drawBit c px py bit).disp.get qx qy =
      (c.disp.get qx qy ^^ (bit && decide (px = qx.val ∧ py = qy.val))) := by
  unfold drawBit
  by_cases h : px < Config.dispW ∧ py < Config.dispH
  · rw [dif_pos h]
    by_cases hq : px = qx.val ∧ py = qy.val
    · obtain ⟨rfl, rfl⟩ := hq
      cases bit <;> cases hd : c.disp.get ⟨qx.val, h.1⟩ ⟨qy.val, h.2⟩ <;> simp_all
    · have hne : ¬((⟨px, h.1⟩ : Fin Config.dispW) = qx ∧ (⟨py, h.2⟩ : Fin Config.dispH) = qy) := by
        simpa only [Fin.ext_iff] using hq
      rw [decide_eq_false hq, Bool.and_false, Bool.xor_false]
      cases bit <;> cases hd : c.disp.get ⟨px, h.1⟩ ⟨py, h.2⟩ <;> simp only [reduceIte, Disp.put_get, if_neg hne, Bool.false_eq_true]
  · rw [dif_neg h]
    have : ¬(px = qx.val ∧ py = qy.val) := fun e => h ⟨e.1 ▸ qx.isLt, e.2 ▸ qy.isLt⟩
    simp [this]

/-- The collision after one sprite bit: as before, or this bit is set over a set pixel inside the grid. -/
theorem drawBit_hit (c : Canvas) (px py : Nat) (bit : Bool) :
    ((drawBit c px py bit).hit = true) ↔
      (c.hit = true ∨ (bit = true ∧
        ∃ (qx : Fin Config.dispW) (qy : Fin Config.dispH), px = qx.val ∧ py = qy.val ∧ c.disp.get qx qy = true)) := by
  unfold drawBit
  by_cases h : px < Config.dispW ∧ py < Config.dispH
  · rw [dif_pos h]
    have key : (∃ (qx : Fin Config.dispW) (qy : Fin Config.dispH), px = qx.val ∧ py = qy.val ∧ c.disp.get qx qy = true) ↔
        c.disp.get ⟨px, h.1⟩ ⟨py, h.2⟩ = true :=
      ⟨fun ⟨qx, qy, ex, ey, e⟩ => by subst ex ey; exact e, fun e => ⟨⟨px, h.1⟩, ⟨py, h.2⟩, rfl, rfl, e⟩⟩
    rw [key]
    cases bit <;> cases hd : c.disp.get ⟨px, h.1⟩ ⟨py, h.2⟩ <;> simp
  · rw [dif_neg h]
    refine ⟨Or.inl, ?_⟩
    rintro (e | ⟨-, qx, qy, rfl, rfl, -⟩)
    · exact e
    · exact absurd ⟨qx.isLt, qy.isLt⟩ h

end Sys2Proof.Machine
end

