-- ==== Sys2Proof/Laws/Exec.lean ====
section
/-! SUPPORT. The two instructions that can fault, each with everything it can do; the other eighteen answer one next
state, by definition. -/

namespace Sys2Proof.Machine

/-- CALL pushes and jumps, or raises StackOverflow on a full stack. -/
theorem exec_call_cases (nnn : Addr) (s : State) :
    (∃ u, s.advance.push (s.pc + 2) = some u ∧ exec (.call nnn) s = .next (u.jump (zextAddr nnn))) ∨
    (16 ≤ s.sp.toNat ∧ exec (.call nnn) s = .next (s.raise .stackOverflow)) := by
  cases h : s.advance.push (s.pc + 2) with
  | some u => exact .inl ⟨u, rfl, by simp only [exec, execCall, State.advance_pc, h]⟩
  | none => exact .inr ⟨by simpa using State.push_eq_none_iff.1 h, by simp only [exec, execCall, State.advance_pc, h]⟩

/-- DRW draws its rows, or raises DataReadOutOfRange when one of them lies beyond memory. -/
theorem exec_drw_cases (x y n : Nibble) (s : State) :
    (∃ rows c, s.spriteBytes n = some rows ∧
      c = drawRows (startColumn (s.v x)) (startRow (s.v y)) rows ⟨s.disp, false⟩ ∧
      exec (.drw x y n) s = .next ((s.advance.setDisp c.disp).setV vf (flagByte c.hit))) ∨
    (0 < n.toNat ∧ 0xFFF < s.I.toNat + (n.toNat - 1) ∧ exec (.drw x y n) s = .next (s.raise .dataReadOutOfRange)) := by
  cases h : s.spriteBytes n with
  | some rows => exact .inl ⟨rows, _, rfl, rfl, by simp only [exec, execDrw, h]⟩
  | none =>
    obtain ⟨h1, h2⟩ := State.spriteBytes_eq_none_iff.1 h
    exact .inr ⟨h1, h2, by simp only [exec, execDrw, h]⟩

end Sys2Proof.Machine
end

