-- ==== Sys2Proof/Laws/Flags.lean ====
section
/-! SUPPORT. The flag values and the narrowed results as numbers (43_alu.md R110). -/

namespace Sys2Proof.Machine

theorem flagByte_toNat_le (c : Bool) : (flagByte c).toNat ≤ 1 := by cases c <;> decide

/-- VF after an addition is 1 exactly when the sum is 256 or more. -/
theorem flagByte_carry (sum : Nat) : flagByte (carry sum) = if 256 ≤ sum then 1 else 0 := by
  by_cases h : 256 ≤ sum
  · rw [if_pos h, carry, decide_eq_true h]; rfl
  · rw [if_neg h, carry, decide_eq_false h]; rfl

/-- VF after a subtraction is 1 exactly when the minuend is not the smaller. -/
theorem flagByte_noBorrow (p q : Byte) : flagByte (noBorrow (exactDiff p q)) = if q.toNat ≤ p.toNat then 1 else 0 := by
  by_cases h : q.toNat ≤ p.toNat
  · rw [if_pos h, noBorrow, exactDiff, decide_eq_false (by omega)]; rfl
  · rw [if_neg h, noBorrow, exactDiff, decide_eq_true (by omega)]; rfl

theorem narrowSum_toNat (p q : Byte) : (narrowSum (exactSum p q)).toNat = (p.toNat + q.toNat) % 256 := by
  simp [narrowSum, exactSum]

theorem narrowDiff_toNat (p q : Byte) :
    ((narrowDiff (exactDiff p q)).toNat : Int) = ((p.toNat : Int) - q.toNat) % 256 := by
  simp [narrowDiff, exactDiff, BitVec.toNat_ofInt]; omega

/-- VF after a shift right is the old bit 0. -/
theorem flagByte_shiftedOutRight_toNat (p : Byte) : (flagByte (shiftedOutRight p)).toNat = p.toNat % 2 := by
  have h : shiftedOutRight p = decide (p.toNat % 2 = 1) := by simp [shiftedOutRight, BitVec.getLsbD, Nat.testBit_zero]
  rw [h]
  by_cases k : p.toNat % 2 = 1
  · rw [decide_eq_true k, k]; rfl
  · rw [decide_eq_false k, show p.toNat % 2 = 0 by omega]; rfl

/-- VF after a shift left is the old bit 7. -/
theorem flagByte_shiftedOutLeft_toNat (p : Byte) : (flagByte (shiftedOutLeft p)).toNat = p.toNat / 128 := by
  have hp := p.isLt
  have h : shiftedOutLeft p = decide (128 ≤ p.toNat) := by
    rw [shiftedOutLeft, BitVec.getLsbD, Nat.testBit_eq_decide_div_mod_eq]; congr 1; simp; omega
  rw [h]
  by_cases k : 128 ≤ p.toNat
  · rw [decide_eq_true k, show p.toNat / 128 = 1 by omega]; rfl
  · rw [decide_eq_false k, show p.toNat / 128 = 0 by omega]; rfl

end Sys2Proof.Machine
end

