-- ==== Sys2Proof/Laws/PerInstr.lean ====
section
/-! SUPPORT. What holds of every instruction as syntax, one lemma per constructor: its word selects its own row of the
opcode map (30_encoding.md R55). -/

namespace Sys2Proof.Laws.OwnRow

/-- The word of the instruction selects the instruction's row, whichever way `STRICT_LOW_NIBBLE` is set. -/
def Statement (i : Instr) : Prop := ∀ strict, (i.row strict).selects (encode i) = true

theorem cls : Statement Instr.cls := fun strict => by cases strict <;> decide
theorem jp (nnn : Addr) : Statement (Instr.jp nnn) := fun _ => (selects_F000_iff 0x1 _ _ (by decide)).2 (fieldOp_formatNnn ..)
theorem call (nnn : Addr) : Statement (Instr.call nnn) := fun _ => (selects_F000_iff 0x2 _ _ (by decide)).2 (fieldOp_formatNnn ..)
theorem seVxKk (x : Nibble) (kk : Byte) : Statement (Instr.seVxKk x kk) := fun _ => (selects_F000_iff 0x3 _ _ (by decide)).2 (fieldOp_formatXkk ..)
theorem sneVxKk (x : Nibble) (kk : Byte) : Statement (Instr.sneVxKk x kk) := fun _ => (selects_F000_iff 0x4 _ _ (by decide)).2 (fieldOp_formatXkk ..)
theorem seVxVy (x y : Nibble) : Statement (Instr.seVxVy x y) := fun strict => by
  cases strict
  · exact (selects_F000_iff 0x5 _ _ (by decide)).2 (fieldOp_formatXyn ..)
  · exact (selects_F00F_iff 0x5 0x0 _ _ (by decide)).2 ⟨fieldOp_formatXyn .., fieldN_formatXyn ..⟩
theorem ldVxKk (x : Nibble) (kk : Byte) : Statement (Instr.ldVxKk x kk) := fun _ => (selects_F000_iff 0x6 _ _ (by decide)).2 (fieldOp_formatXkk ..)
theorem addVxKk (x : Nibble) (kk : Byte) : Statement (Instr.addVxKk x kk) := fun _ => (selects_F000_iff 0x7 _ _ (by decide)).2 (fieldOp_formatXkk ..)
theorem sneVxVy (x y : Nibble) : Statement (Instr.sneVxVy x y) := fun strict => by
  cases strict
  · exact (selects_F000_iff 0x9 _ _ (by decide)).2 (fieldOp_formatXyn ..)
  · exact (selects_F00F_iff 0x9 0x0 _ _ (by decide)).2 ⟨fieldOp_formatXyn .., fieldN_formatXyn ..⟩
theorem ldINnn (nnn : Addr) : Statement (Instr.ldINnn nnn) := fun _ => (selects_F000_iff 0xA _ _ (by decide)).2 (fieldOp_formatNnn ..)
theorem drw (x y n : Nibble) : Statement (Instr.drw x y n) := fun _ => (selects_F000_iff 0xD _ _ (by decide)).2 (fieldOp_formatXyn ..)
theorem ldVxVy (x y : Nibble) : Statement (Instr.ldVxVy x y) := fun _ => (selects_F00F_iff 0x8 0x0 _ _ (by decide)).2 ⟨fieldOp_formatXyn .., fieldN_formatXyn ..⟩
theorem or (x y : Nibble) : Statement (Instr.or x y) := fun _ => (selects_F00F_iff 0x8 0x1 _ _ (by decide)).2 ⟨fieldOp_formatXyn .., fieldN_formatXyn ..⟩
theorem and (x y : Nibble) : Statement (Instr.and x y) := fun _ => (selects_F00F_iff 0x8 0x2 _ _ (by decide)).2 ⟨fieldOp_formatXyn .., fieldN_formatXyn ..⟩
theorem xor (x y : Nibble) : Statement (Instr.xor x y) := fun _ => (selects_F00F_iff 0x8 0x3 _ _ (by decide)).2 ⟨fieldOp_formatXyn .., fieldN_formatXyn ..⟩
theorem addVxVy (x y : Nibble) : Statement (Instr.addVxVy x y) := fun _ => (selects_F00F_iff 0x8 0x4 _ _ (by decide)).2 ⟨fieldOp_formatXyn .., fieldN_formatXyn ..⟩
theorem sub (x y : Nibble) : Statement (Instr.sub x y) := fun _ => (selects_F00F_iff 0x8 0x5 _ _ (by decide)).2 ⟨fieldOp_formatXyn .., fieldN_formatXyn ..⟩
theorem shr (x y : Nibble) : Statement (Instr.shr x y) := fun _ => (selects_F00F_iff 0x8 0x6 _ _ (by decide)).2 ⟨fieldOp_formatXyn .., fieldN_formatXyn ..⟩
theorem subn (x y : Nibble) : Statement (Instr.subn x y) := fun _ => (selects_F00F_iff 0x8 0x7 _ _ (by decide)).2 ⟨fieldOp_formatXyn .., fieldN_formatXyn ..⟩
theorem shl (x y : Nibble) : Statement (Instr.shl x y) := fun _ => (selects_F00F_iff 0x8 0xE _ _ (by decide)).2 ⟨fieldOp_formatXyn .., fieldN_formatXyn ..⟩

end Sys2Proof.Laws.OwnRow
end

