-- ==== Sys2Proof/Laws/Step.lean ====
section
/-! SUPPORT. Everything a step can do, said once. -/

namespace Sys2Proof.Machine

/-- A step whose fetch stops raises FetchOutOfRange. -/
theorem step_of_fetch_none {s : State} (h0 : s.fault = none) (hf : s.fetch = none) :
    step s = .next (s.raise .fetchOutOfRange) := by
  unfold step; rw [h0, hf]

/-- A step whose fetched word is an instruction executes it. -/
theorem step_of_instr {s : State} {w : Word} {i : Instr} (h0 : s.fault = none) (hf : s.fetch = some w)
    (hd : decodeWord w = .instr i) : step s = exec i s := by
  unfold step; rw [h0, hf]; simp only [hd]

/-- A step whose fetched word is unlisted advances pc. -/
theorem step_of_unlisted {s : State} {w : Word} (h0 : s.fault = none) (hf : s.fetch = some w)
    (hd : decodeWord w = .unlisted) : step s = .next s.advance := by
  unfold step; rw [h0, hf]; simp only [hd, execUnlisted]

/-- The four cases of a step that answers a next state. -/
theorem step_cases {s t : State} (h : step s = .next t) :
    (s.fault ≠ none ∧ t = s) ∨
    (s.fault = none ∧ fetchFaultMin ≤ s.pc ∧ t = s.raise .fetchOutOfRange) ∨
    (∃ w, s.fault = none ∧ s.fetch = some w ∧ decodeWord w = .unlisted ∧ t = s.advance) ∨
    (∃ w i, s.fault = none ∧ s.fetch = some w ∧ decodeWord w = .instr i ∧ exec i s = .next t) := by
  unfold step at h
  split at h
  · exact .inl ⟨by simp_all, by simpa using h.symm⟩
  · split at h
    · exact .inr (.inl ⟨‹_›, State.fetch_eq_none_iff.1 ‹_›, by simpa using h.symm⟩)
    · split at h
      · exact .inr (.inr (.inr ⟨_, _, ‹_›, ‹_›, ‹_›, h⟩))
      · exact .inr (.inr (.inl ⟨_, ‹_›, ‹_›, ‹_›, by simpa [execUnlisted] using h.symm⟩))

end Sys2Proof.Machine
end

