-- ==== Sys2Proof/Tests/Slice0.lean ====
section
/-! SUPPORT. The model's own tests. Expected results are those of 95_test_vectors.md (its ids in the comments) or words
written out from the encodings of opcode_table.json; the witnesses show states that meet a statement's hypotheses. -/

namespace Sys2Proof.Tests

open Sys2Proof.Machine

/-! ### Helpers -/

/-- The next state of a step; the state itself where there is none. -/
def after (s : State) : State :=
  match step s with
  | .next t => t
  | .fault _ => s
  | .refused _ => s

/-- Reset with pc, sp and I set. -/
def at' (pc : Word) (sp : BitVec 5) (i : Word) : State := { State.reset with pc := pc, sp := sp, I := i }

/-- One step of a word placed at pc. -/
def run (s : State) (w : Nat) : State := after (s.withFetchWord 16 w)

/-- A byte of memory written before the step. -/
def poke (s : State) (a : Nat) (v : Byte) : State := { s with mem := s.mem.write a v }

/-- A pixel set before the step. -/
def lit (s : State) (px : Fin 64) (py : Fin 32) : State := s.setDisp (s.disp.put px py true)

/-- Two registers set. -/
def regs (x : Nibble) (a : Byte) (y : Nibble) (b : Byte) : State := (State.reset.setV x a).setV y b

/-! ### Well-formedness -/

/-- The one check of this hardware: an image of 3585 bytes is refused (70_reset_and_hazards.md R153). -/
theorem test_long_image_is_refused : imageWellFormed (List.replicate 3585 0) = false := by
  unfold imageWellFormed; rw [List.length_replicate]; decide

theorem test_longest_image_is_accepted : imageWellFormed (List.replicate 3584 0) = true := by
  unfold imageWellFormed; rw [List.length_replicate]; decide

/-- VF as both operands is legal (30_encoding.md R53). -/
theorem test_any_register_is_well_formed : (Instr.shr 15 15).wellFormed = true := by decide

/-! ### Decoding: words written out bit by bit from the "encoding" of each row of opcode_table.json -/

theorem test_decode_cls : decodeWord 0b0000000011100000 = .instr .cls := by decide
theorem test_decode_jp : decodeWord 0b0001101010111100 = .instr (.jp 0xABC) := by decide
theorem test_decode_call : decodeWord 0b0010000100100011 = .instr (.call 0x123) := by decide
theorem test_decode_seVxKk : decodeWord 0b0011101011110001 = .instr (.seVxKk 0xA 0xF1) := by decide
theorem test_decode_sneVxKk : decodeWord 0b0100101100000001 = .instr (.sneVxKk 0xB 0x01) := by decide
theorem test_decode_seVxVy : decodeWord 0b0101101010110000 = .instr (.seVxVy 0xA 0xB) := by decide
theorem test_decode_ldVxKk : decodeWord 0b0110110001000010 = .instr (.ldVxKk 0xC 0x42) := by decide
theorem test_decode_addVxKk : decodeWord 0b0111110100000001 = .instr (.addVxKk 0xD 0x01) := by decide
theorem test_decode_sneVxVy : decodeWord 0b1001101010110000 = .instr (.sneVxVy 0xA 0xB) := by decide
theorem test_decode_ldINnn : decodeWord 0b1010001011110000 = .instr (.ldINnn 0x2F0) := by decide
theorem test_decode_drw : decodeWord 0b1101000100101010 = .instr (.drw 0x1 0x2 0xA) := by decide
theorem test_decode_ldVxVy : decodeWord 0b1000000100100000 = .instr (.ldVxVy 0x1 0x2) := by decide
theorem test_decode_or : decodeWord 0b1000000100100001 = .instr (.or 0x1 0x2) := by decide
theorem test_decode_and : decodeWord 0b1000000100100010 = .instr (.and 0x1 0x2) := by decide
theorem test_decode_xor : decodeWord 0b1000000100100011 = .instr (.xor 0x1 0x2) := by decide
theorem test_decode_addVxVy : decodeWord 0b1000101010110100 = .instr (.addVxVy 0xA 0xB) := by decide
theorem test_decode_sub : decodeWord 0b1000000100100101 = .instr (.sub 0x1 0x2) := by decide
theorem test_decode_shr : decodeWord 0b1000000100100110 = .instr (.shr 0x1 0x2) := by decide
theorem test_decode_subn : decodeWord 0b1000000100100111 = .instr (.subn 0x1 0x2) := by decide
theorem test_decode_shl : decodeWord 0b1000101010111110 = .instr (.shl 0xA 0xB) := by decide

/-- T8: unlisted words of row 0. -/
theorem test_decode_unlisted_zero : decodeWord 0x0000 = .unlisted ∧
    decodeWord 0x0001 = .unlisted ∧
    decodeWord 0x00E1 = .unlisted ∧
    decodeWord 0x00EE = .unlisted ∧
    decodeWord 0x0FFF = .unlisted := by
  refine ⟨?_, ?_, ?_, ?_, ?_⟩ <;> decide

/-- T8: unlisted words of rows 5 and 9, low nibble not 0. -/
theorem test_decode_unlisted_pairs : decodeWord 0x5011 = .unlisted ∧
    decodeWord 0x501F = .unlisted ∧
    decodeWord 0x9011 = .unlisted ∧
    decodeWord 0x901F = .unlisted := by
  refine ⟨?_, ?_, ?_, ?_⟩ <;> decide

/-- T8: unlisted words of row 8. -/
theorem test_decode_unlisted_alu : decodeWord 0x8018 = .unlisted ∧
    decodeWord 0x8019 = .unlisted ∧
    decodeWord 0x801A = .unlisted ∧
    decodeWord 0x801B = .unlisted ∧
    decodeWord 0x801C = .unlisted ∧
    decodeWord 0x801D = .unlisted ∧
    decodeWord 0x801F = .unlisted := by
  refine ⟨?_, ?_, ?_, ?_, ?_, ?_, ?_⟩ <;> decide

/-- T8: unlisted words of rows B, C, E, F. -/
theorem test_decode_unlisted_high : decodeWord 0xB300 = .unlisted ∧
    decodeWord 0xC0FF = .unlisted ∧
    decodeWord 0xE09E = .unlisted ∧
    decodeWord 0xE0A1 = .unlisted ∧
    decodeWord 0xF007 = .unlisted ∧
    decodeWord 0xF00A = .unlisted ∧
    decodeWord 0xF01E = .unlisted ∧
    decodeWord 0xF029 = .unlisted ∧
    decodeWord 0xF033 = .unlisted ∧
    decodeWord 0xF055 = .unlisted ∧
    decodeWord 0xF065 = .unlisted ∧
    decodeWord 0xFFFF = .unlisted := by
  refine ⟨?_, ?_, ?_, ?_, ?_, ?_, ?_, ?_, ?_, ?_, ?_, ?_⟩ <;> decide

/-- S9: the byte at pc is the high byte; a lone byte is no instruction. -/
theorem test_decode_bytes : decodeBytes [0x6A, 0x7F, 0x00] = some (.instr (.ldVxKk 0xA 0x7F), [0x00]) ∧
    decodeBytes [0x6A] = none := by decide

/-- The table's numbering: bit 0 of the table is bit 0 of the word. -/
theorem test_decodeTableWord : decodeTableWord 16 0x8AB4 = some (.addVxVy 0xA 0xB) ∧ decodeTableWord 16 0xB000 = none := by
  decide

/-! ### Reset (10_state.md R22, 20_memory.md R33) -/

/-- Glyph 0 starts the font table, glyph F ends it, and zeros lie around them. -/
theorem test_reset_memory : State.reset.mem.read 0x04F = some 0 ∧ State.reset.mem.read 0x050 = some 0xF0 ∧
    State.reset.mem.read 0x09F = some 0x80 ∧ State.reset.mem.read 0x0A0 = some 0 ∧ State.reset.mem.read 0xFFF = some 0 ∧
    State.reset.mem.read 0x1000 = none := by decide

theorem test_font_has_80_bytes : font.length = 80 := by decide

/-- P3's loading: the image stands at 0x200. -/
theorem test_resetWith : (State.resetWith [0xA2, 0x0E]).map (fun s => (s.mem, s.pc)) =
    some ([(0x200, 0xA2), (0x201, 0x0E)], 0x200) := by decide

/-! ### Control flow -/

/-- T1.3: a jump to an odd address, and the fetch there. -/
theorem test_jp_odd : (after (poke (poke (run State.reset 0x1203) 0x203 0x60) 0x204 0x2A)).v 0 = 0x2A ∧
    (run State.reset 0x1203).pc = 0x203 := by decide

/-- T1.8: the last free slot. -/
theorem test_call_last_slot : (run (at' 0x200 15 0) 0x2ABC).slot 15 = 0x202 ∧ (run (at' 0x200 15 0) 0x2ABC).sp = 16 ∧
    (run (at' 0x200 15 0) 0x2ABC).pc = 0xABC := by decide

/-- T1.9: the 17th push. -/
theorem test_call_overflow : (run (at' 0x200 16 0) 0x2ABC).fault = some ⟨.stackOverflow, 0x200⟩ ∧
    (run (at' 0x200 16 0) 0x2ABC).pc = 0x200 ∧ (run (at' 0x200 16 0) 0x2ABC).sp = 16 := by decide

/-- S5a, S5b. -/
theorem test_se_imm : (run (regs 0 7 1 0) 0x3007).pc = 0x204 ∧ (run (regs 0 7 1 0) 0x3008).pc = 0x202 := by decide

/-- T2.3, T2.4. -/
theorem test_sne_imm : (run (regs 0 7 1 0) 0x4007).pc = 0x202 ∧ (run (regs 0 7 1 0) 0x4008).pc = 0x204 := by decide

/-- T2.6, T2.7. -/
theorem test_se_reg : (run (regs 0 7 1 8) 0x5010).pc = 0x202 ∧ (run (regs 0 7 1 8) 0x5000).pc = 0x204 := by decide

/-- T2.9, T2.10. -/
theorem test_sne_reg : (run (regs 0 7 1 8) 0x9010).pc = 0x204 ∧ (run (regs 0 7 1 8) 0x9000).pc = 0x202 := by decide

/-! ### Immediates -/

/-- T3.2: VF as a plain destination. -/
theorem test_ld_imm_vf : (run State.reset 0x6F55).v 15 = 0x55 ∧ (run State.reset 0x6F55).pc = 0x202 := by decide

/-- T3.4: the wrap leaves VF alone. -/
theorem test_add_imm_wraps : (run (regs 0 0xFA 15 7) 0x700A).v 0 = 4 ∧ (run (regs 0 0xFA 15 7) 0x700A).v 15 = 7 := by
  decide

/-- T3.11. -/
theorem test_ld_index : (run State.reset 0xAFFF).I = 0x0FFF := by decide

/-! ### The ALU -/

/-- T4.1. -/
theorem test_ld_reg : (run (regs 0 1 1 0xAB) 0x8010).v 0 = 0xAB ∧ (run (regs 0 1 1 0xAB) 0x8010).v 1 = 0xAB := by decide

/-- T4.2: VF is left alone. -/
theorem test_or : (run ((regs 0 0x0F 1 0xF0).setV 15 9) 0x8011).v 0 = 0xFF ∧
    (run ((regs 0 0x0F 1 0xF0).setV 15 9) 0x8011).v 15 = 9 := by decide

/-- T4.3. -/
theorem test_and : (run (regs 0 0x3C 1 0x0F) 0x8012).v 0 = 0x0C := by decide

/-- T4.8: VF as the destination. -/
theorem test_xor_vf : (run (regs 15 0xAA 1 0xFF) 0x8F13).v 15 = 0x55 := by decide

/-- T5.9: the old VF is the operand. -/
theorem test_add_reg_vf_source : (run (regs 0 0xFF 15 1) 0x80F4).v 0 = 0 ∧ (run (regs 0 0xFF 15 1) 0x80F4).v 15 = 1 := by
  decide

/-- T5.11: the flag wins over the sum. -/
theorem test_add_reg_vf_destination : (run (regs 15 1 1 1) 0x8F14).v 15 = 0 := by decide

/-- T5.13: a borrow. -/
theorem test_sub_borrow : (run (regs 0 3 1 5) 0x8015).v 0 = 0xFE ∧ (run (regs 0 3 1 5) 0x8015).v 15 = 0 := by decide

/-- T5.15: equal operands do not borrow. -/
theorem test_sub_equal : (run (regs 0 5 1 5) 0x8015).v 15 = 1 := by decide

/-- T5.24. -/
theorem test_subn_borrow : (run (regs 0 5 1 3) 0x8017).v 0 = 0xFE ∧ (run (regs 0 5 1 3) 0x8017).v 1 = 3 ∧
    (run (regs 0 5 1 3) 0x8017).v 15 = 0 := by decide

/-- T5.27. -/
theorem test_subn_vf : (run (regs 15 3 1 5) 0x8F17).v 15 = 1 := by decide

/-- T6.2: Vy is ignored. -/
theorem test_shr_ignores_vy : (run (regs 0 0x80 1 0xFF) 0x8016).v 0 = 0x40 ∧ (run (regs 0 0x80 1 0xFF) 0x8016).v 15 = 0 := by
  decide

/-- T6.6. -/
theorem test_shr_vf : (run (regs 15 7 1 0) 0x8F06).v 15 = 0 := by decide

/-- T6.7. -/
theorem test_shl : (run (regs 0 0x81 1 0) 0x800E).v 0 = 2 ∧ (run (regs 0 0x81 1 0) 0x800E).v 15 = 1 := by decide

/-- T6.13. -/
theorem test_shl_vf : (run (regs 15 0xC1 1 0) 0x8F0E).v 15 = 2 := by decide

/-! ### The display -/

/-- T7.1. -/
theorem test_cls : (run ((lit State.reset 63 31).setV 15 1) 0x00E0).pixel 63 31 = false ∧
    (run ((lit State.reset 63 31).setV 15 1) 0x00E0).v 15 = 1 := by decide

/-- T7.10: a mixed row, with the sprite byte at 0x300. -/
def mixedRow : State := run (lit (lit (poke (at' 0x200 0 0x300) 0x300 0xC1) 1 0) 7 0) 0xD011

set_option maxRecDepth 4000 in
theorem test_drw_collides : mixedRow.pixel 0 0 = true ∧ mixedRow.pixel 1 0 = false ∧ mixedRow.pixel 7 0 = false ∧
    mixedRow.pixel 2 0 = false ∧ mixedRow.v 15 = 1 := by decide

/-- T7.16: the font's glyph 0 in the corner. -/
def cornerGlyph : State := run (((at' 0x200 0 0x050).setV 0 62).setV 1 30) 0xD015

set_option maxRecDepth 4000 in
theorem test_drw_clips : cornerGlyph.pixel 62 30 = true ∧ cornerGlyph.pixel 63 30 = true ∧ cornerGlyph.pixel 62 31 = true ∧
    cornerGlyph.pixel 63 31 = false ∧ cornerGlyph.pixel 0 30 = false ∧ cornerGlyph.pixel 62 0 = false ∧
    cornerGlyph.v 15 = 0 := by decide

/-! ### The step and its faults -/

/-- T8: an unlisted word. -/
theorem test_unlisted_step : (run (at' 0x200 3 0x123) 0x00EE).pc = 0x202 ∧ (run (at' 0x200 3 0x123) 0x00EE).sp = 3 := by
  decide

/-- T9.4: the largest pc that executes. -/
theorem test_top_of_memory : (run (at' 0xFFD 0 0) 0x6022).v 0 = 0x22 ∧ (run (at' 0xFFD 0 0) 0x6022).pc = 0xFFF := by
  decide

/-- T9.5, T9.3: the fault, and the machine that does not move. -/
theorem test_fetch_fault : (run (at' 0xFFE 0 0) 0x6033).fault = some ⟨.fetchOutOfRange, 0xFFE⟩ ∧
    (run (at' 0xFFE 0 0) 0x6033).v 0 = 0 ∧ (after (run (at' 0xFFE 0 0) 0x6033)).pc = 0xFFE := by decide

/-! ### Witnesses: concrete states and operands that meet the hypotheses of the statements together -/

theorem witness_JpSetsPcToItsOperand : (at' 0x200 0 0).Unfaulted ∧ fetchFaultMin ≤ (run (at' 0x200 0 0) 0x1FFE).pc ∧
    (run (at' 0x200 0 0) 0x1FFE).Unfaulted := by decide
theorem witness_CallPushesTheAdvancedPc : (at' 0x200 0 0).sp.toNat < 16 ∧ (at' 0x200 15 0).sp.toNat < 16 := by decide
theorem witness_CallOnAFullStackRaisesStackOverflow : 16 ≤ (at' 0x200 16 0).sp.toNat := by decide
theorem witness_SeImmediateSkipsOnEqual : (at' 0xFFC 0 0).Unfaulted ∧ fetchFaultMin ≤ (run (at' 0xFFC 0 0) 0x3000).pc ∧
    (run (at' 0xFFC 0 0) 0x3000).pc = 0x1000 := by decide
theorem witness_SneImmediateSkipsOnNotEqual : (at' 0xFFC 0 0).Unfaulted ∧ fetchFaultMin ≤ (run (at' 0xFFC 0 0) 0x4000).pc ∧
    (run (at' 0xFFC 0 0) 0x4000).pc = 0xFFE := by decide
theorem witness_LdIndexLoadsI : isLdI (.addVxKk 15 255) = false ∧ ∃ t, exec (.addVxKk 15 255) State.reset = .next t :=
  ⟨rfl, _, rfl⟩
theorem witness_AddRegisterWrapsAndVfIsTheCarry : (14 : Nibble) ≠ 0xF#4 ∧ (13 : Nibble) ≠ 14 := by decide
theorem witness_SubWrapsAndVfIsNoBorrow : (0 : Nibble) ≠ 0xF#4 ∧ (1 : Nibble) ≠ 0 ∧ (1 : Nibble) ≠ 0xF#4 := by decide
theorem witness_SubnWrapsAndVfIsNoBorrow : (14 : Nibble) ≠ 0xF#4 ∧ (0 : Nibble) ≠ 14 ∧ (0 : Nibble) ≠ 0xF#4 := by decide
theorem witness_ShrHalvesVxAndVfIsBitZero : (14 : Nibble) ≠ 0xF#4 ∧ (15 : Nibble) = 0xF#4 := by decide
theorem witness_ShlDoublesVxAndVfIsBitSeven : (0 : Nibble) ≠ 0xF#4 ∧ (15 : Nibble) = 0xF#4 ∧
    128 ≤ ((regs 15 0x80 0 0).v 15).toNat := by decide
theorem witness_AluFlagsAreZeroOrOne : (∃ t, exec (.addVxVy 15 1) State.reset = .next t) ∧
    (∃ t, (14 : Nibble) ≠ 0xF#4 ∧ exec (.shl 14 1) State.reset = .next t) ∧ ∃ t, exec (.shl 15 1) State.reset = .next t :=
  ⟨⟨_, rfl⟩, ⟨_, by decide, rfl⟩, _, rfl⟩
theorem witness_ClsClearsEveryPixel : decodeWord 0x00E0 = .instr .cls := by decide
theorem witness_DrwCompositesTheClippedSprite : (at' 0x200 0 0xFFF).SpriteInRange 1 ∧ (at' 0x200 0 0xFF1).SpriteInRange 15 ∧
    (at' 0x200 0 0xFFFF).SpriteInRange 0 := by
  refine ⟨?_, ?_, ?_⟩ <;> unfold State.SpriteInRange <;> decide
set_option maxRecDepth 4000 in
/-- Both values of VF: a bit over a set pixel, and none. -/
theorem witness_DrwVf : (lit State.reset 0 0).pixel 0 0 = true ∧
    (poke (at' 0x200 0 0x300) 0x300 0x80).spriteOver 0 0 1 0 0 = true ∧
    (poke (at' 0x200 0 0x300) 0x300 0x80).spriteOver 0 0 1 1 0 = false := by decide
theorem witness_DrwBeyondMemoryRaisesDataReadOutOfRange : 0 < (2 : Nibble).toNat ∧
    0xFFF < (at' 0x200 0 0xFFF).I.toNat + ((2 : Nibble).toNat - 1) ∧ 0 < (15 : Nibble).toNat ∧
    0xFFF < (at' 0x200 0 0xFF2).I.toNat + ((15 : Nibble).toNat - 1) := by decide
theorem witness_DrawingTwiceRestoresTheDisplay : (14 : Nibble) ≠ 0xF#4 ∧ (14 : Nibble) ≠ 0xF#4 ∧
    (at' 0x200 0 0x050).SpriteInRange 5 := ⟨by decide, by decide, .inr (by decide)⟩
theorem witness_UnlistedWordsOnlyAdvancePc : (State.reset.withFetchWord 16 0xF00A).Unfaulted ∧
    (State.reset.withFetchWord 16 0xF00A).fetch = some 0xF00A ∧ decodeWord 0xF00A = .unlisted := by decide
theorem witness_OpcodeRowsAreDisjoint : ((Instr.shl 0 0).row true).selects 0x8FFE = true ∧
    ((Instr.shl 3 4).row true).selects 0x8FFE = true := by decide
/-- A candidate that the word selects, in the lax reading too. -/
theorem witness_OpcodeRowsAreDisjoint_candidates : Instr.shl 15 15 ∈ candidates 0x8FFE ∧
    ((Instr.shl 15 15).row true).selects 0x8FFE = true ∧ Instr.seVxVy 0 1 ∈ candidates 0x5011 ∧
    ((Instr.seVxVy 0 1).row false).selects 0x5011 = true := by decide
/-- Another order of the tests. -/
theorem witness_OpcodeRowsAreDisjoint_order : (candidates 0x8FFE).reverse.Perm (candidates 0x8FFE) := List.reverse_perm _
theorem witness_LowNibbleOfTheRegisterSkips : (1 : Nibble) ≠ 0 ∧ (15 : Nibble) ≠ 0 := by decide
theorem witness_DecodeOfEncodeIsTheInstruction : (Instr.drw 15 15 15).wellFormed = true ∧ Instr.cls.wellFormed = true := by
  decide
theorem witness_EncodeOfDecodeIsTheWord : decodeWord 0x8FF6 = .instr (.shr 15 15) := by decide

/-- A state about to run `CALL 0xABC` in its last free slot at the largest pc that executes. -/
def aboutToCall : State := (at' 0xFFD 15 0).withFetchWord 16 0x2ABC
/-- The same with the stack full. -/
def aboutToOverflow : State := (at' 0xFFD 16 0).withFetchWord 16 0x2ABC
/-- A state about to run a draw whose second row lies beyond memory. -/
def aboutToDraw : State := (at' 0x200 0 0xFFF).withFetchWord 16 0xD002

theorem witness_StepRunsTheDecodedInstruction : aboutToCall.Unfaulted ∧ aboutToCall.pc < fetchFaultMin ∧
    aboutToCall.mem.read aboutToCall.pc.toNat = some 0x2A ∧ aboutToCall.mem.read (aboutToCall.pc.toNat + 1) = some 0xBC ∧
    decodeBytes [0x2A, 0xBC] = some (.instr (.call 0xABC), []) ∧ (Instr.call 0xABC).wellFormed = true := by decide
theorem witness_FetchIsBigEndianAtAnyPc : aboutToCall.pc.toNat < 0xFFE ∧ State.reset.pc.toNat < 0xFFE := by decide
theorem witness_FaultConditionsAreComplete_fetch : (at' 0xFFE 0 0).Unfaulted ∧
    step (at' 0xFFE 0 0) = .next ((at' 0xFFE 0 0).raise .fetchOutOfRange) := ⟨rfl, rfl⟩
theorem witness_FaultConditionsAreComplete_stack : aboutToOverflow.Unfaulted ∧
    step aboutToOverflow = .next (aboutToOverflow.raise .stackOverflow) := ⟨rfl, rfl⟩
theorem witness_FaultConditionsAreComplete_draw : aboutToDraw.Unfaulted ∧
    step aboutToDraw = .next (aboutToDraw.raise .dataReadOutOfRange) := ⟨rfl, rfl⟩
theorem witness_FaultConditionsAreComplete_none : aboutToCall.Unfaulted ∧
    ∃ t, step aboutToCall = .next t ∧ t.fault = none := ⟨rfl, _, rfl, rfl⟩
theorem witness_FaultsArePrecise : aboutToDraw.Unfaulted ∧ ∃ t f, step aboutToDraw = .next t ∧ t.fault = some f :=
  ⟨rfl, _, _, rfl, rfl⟩
theorem witness_AFaultedMachineDoesNotMove : ((at' 0xFFE 0 0).raise .fetchOutOfRange).fault ≠ none := by decide
theorem witness_OnlyTheNamedInstructionsWrite : (∃ t, exec (.shr 15 15) State.reset = .next t) ∧ isCall (.shr 15 15) = false ∧
    isLdI (.shr 15 15) = false ∧ writesDisplay (.shr 15 15) = false := ⟨⟨_, rfl⟩, rfl, rfl, rfl⟩
theorem witness_OnlyTheDestinationAndVfChange : (∃ t, exec (.shl 3 15) State.reset = .next t) ∧
    destination (.shl 3 15) ≠ some 14 ∧ (writesFlag (.shl 3 15) = true → (14 : Nibble) ≠ 0xF#4) ∧
    (∃ t, exec (.ldVxKk 3 15) State.reset = .next t) ∧ destination (.ldVxKk 3 15) ≠ some 15 ∧
    (writesFlag (.ldVxKk 3 15) = true → (15 : Nibble) ≠ 0xF#4) :=
  ⟨⟨_, rfl⟩, by decide, by decide, ⟨_, rfl⟩, by decide, by decide⟩
theorem witness_PcAfterAnInstruction : aboutToCall.Unfaulted ∧
    (∃ t, exec (.call 0xABC) aboutToCall = .next t ∧ t.fault = none) ∧ aboutToOverflow.Unfaulted ∧
    ∃ t, exec (.call 0xABC) aboutToOverflow = .next t ∧ t.fault ≠ none :=
  ⟨rfl, ⟨_, rfl, rfl⟩, rfl, _, rfl, by decide⟩
theorem witness_NoStepWritesMemory : ∃ t, step aboutToCall = .next t := ⟨_, rfl⟩
theorem witness_CallsAreNeverUndone : (∃ t, step aboutToCall = .next t) ∧ (14 : Fin Config.stackDepth).val < aboutToCall.sp.toNat :=
  ⟨⟨_, rfl⟩, by decide⟩
theorem witness_SlotsCannotBeObserved : ∃ t, step aboutToCall = .next t := ⟨_, rfl⟩
theorem witness_EveryStepKeepsTheBounds : aboutToCall.Bounded ∧ ∃ t, step aboutToCall = .next t :=
  ⟨⟨by decide, by decide, by decide, by decide, by decide, by decide, by simp [aboutToCall, at', State.withFetchWord, State.placeWord, State.reset]⟩, _, rfl⟩
theorem witness_ResetLoadsTheProgramVerbatim : (List.replicate 3584 (0 : Byte)).length ≤ 3584 ∧
    3584 < (List.replicate 3585 (0 : Byte)).length ∧ ([] : List Byte).length ≤ 3584 := by
  rw [List.length_replicate, List.length_replicate]; decide
theorem witness_ReadAfterWrite : Memory.wf [(0x200, 0xA2)] ∧ 0xFFF < 4096 ∧ 0 < 4096 := by decide
/-- The addresses on both sides of the end of memory. -/
theorem witness_ReadAfterWrite_end : 0xFFF < 4096 ∧ 4096 ≤ 0x1000 ∧ Memory.read [(0x200, 0xA2)] 0x1000 = none ∧
    (Memory.write [(0x200, 0xA2)] 0xFFF 0x55).read 0xFFF = some 0x55 := by decide
theorem witness_APlacedWordIsRunByTheNextStep : (at' 0xFFD 0 0).Unfaulted ∧ (at' 0xFFD 0 0).pc < fetchFaultMin ∧
    (at' 0xFFD 0 0).mem.wf := by decide

end Sys2Proof.Tests
end

section
/-! The fields of a word as numbers and how they overlap (30_encoding.md section 2, R51). -/

namespace Sys2Proof

/-- The high nibble needs no reduction mod 16: nothing of a 16-bit word stands above it. -/
theorem fieldOp_toNat_eq_div (w : Word) : (fieldOp w).toNat = w.toNat / 4096 := by
  rw [fieldOp_toNat]
  exact Nat.mod_eq_of_lt (Nat.div_lt_of_lt_mul w.isLt)

/-- R51, the overlap of kk with y and n. -/
theorem fieldKk_toNat_eq_fieldY_fieldN (w : Word) :
    (fieldKk w).toNat = (fieldY w).toNat * 16 + (fieldN w).toNat := by
  rw [fieldKk_toNat, fieldY_toNat, fieldN_toNat]
  omega

/-- R51, the overlap of nnn with x and kk. -/
theorem fieldNnn_toNat_eq_fieldX_fieldKk (w : Word) :
    (fieldNnn w).toNat = (fieldX w).toNat * 256 + (fieldKk w).toNat := by
  rw [fieldNnn_toNat, fieldX_toNat, fieldKk_toNat]
  omega

/-- Settles O27, by the value of each field as a number; the two overlaps are arithmetic on those values. -/
theorem fieldsAreTheirBits : Obligations.FieldsAreTheirBits := fun w =>
  ⟨fieldOp_toNat_eq_div w, fieldX_toNat w, fieldY_toNat w, fieldN_toNat w, fieldKk_toNat w, fieldNnn_toNat w,
    fieldKk_toNat_eq_fieldY_fieldN w, fieldNnn_toNat_eq_fieldX_fieldKk w⟩

end Sys2Proof
end

section
/-! Words that are no instruction and the step that runs them (30_encoding.md section 7, 40_step_cycle.md R76). -/

namespace Sys2Proof.Machine

/-- R72: the advance of pc writes no general register. -/
theorem sameRegisters_advance (s : State) : SameRegisters s s.advance := s.advance_v

/-- R72: the advance of pc writes nothing beyond the registers either. -/
theorem sameBeyondRegisters_advance (s : State) : SameBeyondRegisters s s.advance :=
  ⟨s.advance_I, ⟨s.advance_sp, s.advance_slot⟩, fun _ => by rw [s.advance_mem], s.advance_pixel, s.advance_fault⟩

end Sys2Proof.Machine

namespace Sys2Proof

/-- No row of the opcode map has the high nibble F: each row that tests it names another one, and CLS has 0. -/
theorem decodeWord_eq_unlisted_of_fieldOp_F {w : Word} (hop : fieldOp w = 0xF) : decodeWord w = .unlisted := by
  have hcls : w ≠ 0x00E0 := by rintro rfl; exact absurd hop (by decide)
  rw [decodeWord_by_fields, if_neg hcls]
  simp [hop]

/-- The words 0xFx0A in format XKK. -/
theorem ofNat_Fx0A_eq_formatXkk (x : Nibble) :
    BitVec.ofNat 16 (0xF00A + 0x100 * x.toNat) = formatXkk 0xF x 0x0A := by
  rw [← ofNat_eq_formatXkk 0xF x 0x0A 0xF000 rfl]
  congr 1
  exact Nat.add_right_comm 0xF000 0x0A (0x100 * x.toNat)

/-- Settles O25: the step on an unlisted word is the advance of pc, whose frame is known; the named words are decoded,
the sixteen of 0xFx0A by their high nibble. -/
theorem unlistedWordsOnlyAdvancePc : Obligations.UnlistedWordsOnlyAdvancePc := by
  refine ⟨fun s w h0 hf hd => ?_, by decide, by decide, fun x => ?_⟩
  · exact ⟨s.advance, Machine.step_of_unlisted h0 hf hd, s.advance_pc, Machine.sameRegisters_advance s,
      Machine.sameBeyondRegisters_advance s⟩
  · rw [ofNat_Fx0A_eq_formatXkk]
    exact decodeWord_eq_unlisted_of_fieldOp_F (fieldOp_formatXkk ..)

end Sys2Proof
end

section
/-! The skips that compare two registers (41_control_flow.md section 3, R84 and R85). -/

namespace Sys2Proof

/-- The word of CLS has the high nibble 0, so a word with another one does not select its row (R54 (a)). -/
theorem ne_cls_of_fieldOp_ne_zero {w : Word} (hop : fieldOp w ≠ 0) : w ≠ 0x00E0 := by
  rintro rfl
  exact hop (by decide)

/-- The words 0x5xy0 (R55 row 6). -/
theorem decodeWord_formatXyn_5xy0 (x y : Nibble) : decodeWord (formatXyn 0x5 x y 0x0) = .instr (.seVxVy x y) := by
  have hcls : formatXyn 0x5 x y 0x0 ≠ 0x00E0 := ne_cls_of_fieldOp_ne_zero (by simp)
  rw [decodeWord_by_fields, if_neg hcls]
  simp

/-- The words 0x9xy0 (R55 row 9). -/
theorem decodeWord_formatXyn_9xy0 (x y : Nibble) : decodeWord (formatXyn 0x9 x y 0x0) = .instr (.sneVxVy x y) := by
  have hcls : formatXyn 0x9 x y 0x0 ≠ 0x00E0 := ne_cls_of_fieldOp_ne_zero (by simp)
  rw [decodeWord_by_fields, if_neg hcls]
  simp

end Sys2Proof

namespace Sys2Proof.Machine

/-- A skip adds 2 to the pc that the step has already advanced by 2. -/
theorem State.skipIf_advance_pc (s : State) (c : Bool) :
    (s.advance.skipIf c).pc = if c then s.pc + 4 else s.pc + 2 := by
  rw [State.skipIf_pc, State.advance_pc, BitVec.add_assoc]
  rfl

/-- No skip writes a general register, taken or not. -/
theorem sameRegisters_skipIf_advance (s : State) (c : Bool) : SameRegisters s (s.advance.skipIf c) := s.advance.skipIf_v c

/-- No skip writes anything beyond the registers but pc, taken or not. -/
theorem sameBeyondRegisters_skipIf_advance (s : State) (c : Bool) :
    SameBeyondRegisters s (s.advance.skipIf c) :=
  ⟨s.advance.skipIf_I c, ⟨s.advance.skipIf_sp c, s.advance.skipIf_slot c⟩,
    fun _ => by rw [State.skipIf_mem, State.advance_mem], s.advance.skipIf_pixel c, s.advance.skipIf_fault c⟩

/-- SE Vx, Vy skips on the comparison of the registers at the start of the step. -/
theorem exec_seVxVy (x y : Nibble) (s : State) :
    exec (.seVxVy x y) s = .next (s.advance.skipIf (s.v x == s.v y)) := rfl

/-- SNE Vx, Vy skips on the opposite comparison. -/
theorem exec_sneVxVy (x y : Nibble) (s : State) :
    exec (.sneVxVy x y) s = .next (s.advance.skipIf (s.v x != s.v y)) := rfl

end Sys2Proof.Machine

namespace Sys2Proof

open Machine

/-- Settles O6: the word is 0x5xy0 in format XY, and the step is a skip on equality, whose pc and frame are known. -/
theorem seRegisterSkipsOnEqual : Obligations.SeRegisterSkipsOnEqual := by
  intro x y s
  refine ⟨?_, _, exec_seVxVy x y s, ?_, sameRegisters_skipIf_advance s _, sameBeyondRegisters_skipIf_advance s _⟩
  · rw [ofNat_eq_formatXy 0x5 x y 0x0 0x5000 rfl]
    exact decodeWord_formatXyn_5xy0 x y
  · simp only [State.skipIf_advance_pc, beq_iff_eq]

/-- Settles O7: the word is 0x9xy0 in format XY, and the step is a skip on inequality, whose pc and frame are known. -/
theorem sneRegisterSkipsOnNotEqual : Obligations.SneRegisterSkipsOnNotEqual := by
  intro x y s
  refine ⟨?_, _, exec_sneVxVy x y s, ?_, sameRegisters_skipIf_advance s _, sameBeyondRegisters_skipIf_advance s _⟩
  · rw [ofNat_eq_formatXy 0x9 x y 0x0 0x9000 rfl]
    exact decodeWord_formatXyn_9xy0 x y
  · simp only [State.skipIf_advance_pc, bne_iff_ne, ne_eq, ite_not]

end Sys2Proof
end

section
/-! The instructions with an immediate operand, and what writes I (42_immediate.md, R90 to R92). -/

namespace Sys2Proof

/-- The words 0x6xkk (R55 row 7). -/
theorem decodeWord_formatXkk_6xkk (x : Nibble) (kk : Byte) : decodeWord (formatXkk 0x6 x kk) = .instr (.ldVxKk x kk) := by
  have hcls : formatXkk 0x6 x kk ≠ 0x00E0 := ne_cls_of_fieldOp_ne_zero (by simp)
  rw [decodeWord_by_fields, if_neg hcls]
  simp

/-- The words 0x7xkk (R55 row 8). -/
theorem decodeWord_formatXkk_7xkk (x : Nibble) (kk : Byte) : decodeWord (formatXkk 0x7 x kk) = .instr (.addVxKk x kk) := by
  have hcls : formatXkk 0x7 x kk ≠ 0x00E0 := ne_cls_of_fieldOp_ne_zero (by simp)
  rw [decodeWord_by_fields, if_neg hcls]
  simp

/-- The words 0xAnnn (R55 row 10). -/
theorem decodeWord_formatNnn_Annn (nnn : Addr) : decodeWord (formatNnn 0xA nnn) = .instr (.ldINnn nnn) := by
  have hcls : formatNnn 0xA nnn ≠ 0x00E0 := ne_cls_of_fieldOp_ne_zero (by simp)
  rw [decodeWord_by_fields, if_neg hcls]
  simp

end Sys2Proof

namespace Sys2Proof.Machine

/-- Zero extension keeps the value of nnn (R53). -/
theorem zextAddr_toNat (nnn : Addr) : (zextAddr nnn).toNat = nnn.toNat :=
  BitVec.toNat_setWidth_of_le (by decide)

/-- A write to a register keeps the frame beyond the registers, so the frame survives any run of such writes. -/
theorem SameBeyondRegisters.setV {s t : State} (h : SameBeyondRegisters s t) (r : Nibble) (b : Byte) :
    SameBeyondRegisters s (t.setV r b) := h

/-- The frame of an instruction that writes one register. -/
theorem sameBeyondRegisters_setV_advance (s : State) (r : Nibble) (b : Byte) :
    SameBeyondRegisters s (s.advance.setV r b) :=
  (sameBeyondRegisters_advance s).setV r b

/-- LD Vx, kk writes its operand. -/
theorem exec_ldVxKk (x : Nibble) (kk : Byte) (s : State) : exec (.ldVxKk x kk) s = .next (s.advance.setV x kk) := rfl

/-- ADD Vx, kk writes the narrowed sum of V[x] at the start of the step and its operand, and no flag. -/
theorem exec_addVxKk (x : Nibble) (kk : Byte) (s : State) :
    exec (.addVxKk x kk) s = .next (s.advance.setV x (narrowSum (exactSum (s.v x) kk))) := rfl

/-- LD I, nnn writes its operand, zero-extended. -/
theorem exec_ldINnn (nnn : Addr) (s : State) : exec (.ldINnn nnn) s = .next (s.advance.setI (zextAddr nnn)) := rfl

/-- An outcome whose state has the I of `s` leaves I as it was. -/
theorem I_eq_of_next {s t u : State} (h : (.next u : Host.Outcome State Fault Refusal) = .next t) (hu : u.I = s.I) :
    t.I = s.I := by
  cases h
  exact hu

/-- R13: only LD I, nnn writes I. Each other instruction writes pc, registers, the stack, the display or the latch. -/
theorem exec_I_of_not_isLdI {i : Instr} {s t : State} (hi : isLdI i = false) (h : exec i s = .next t) : t.I = s.I := by
  cases i with
  | ldINnn => simp [isLdI] at hi
  | call nnn =>
    obtain ⟨u, hu, he⟩ | ⟨-, he⟩ := exec_call_cases nnn s <;> rw [he] at h
    · obtain ⟨_, rfl⟩ := State.push_eq_some_iff.1 hu
      exact I_eq_of_next h rfl
    · exact I_eq_of_next h rfl
  | drw x y n =>
    obtain ⟨_, _, -, -, he⟩ | ⟨-, -, he⟩ := exec_drw_cases x y n s <;> rw [he] at h <;> exact I_eq_of_next h rfl
  | seVxKk | sneVxKk | seVxVy | sneVxVy => exact I_eq_of_next h (s.advance.skipIf_I _)
  | cls | jp | ldVxKk | addVxKk | ldVxVy | or | and | xor | addVxVy | sub | shr | subn | shl => exact I_eq_of_next h rfl

end Sys2Proof.Machine

namespace Sys2Proof

open Machine

/-- Settles O10: the word is 0xAnnn in format NNN, the step writes I after the advance of pc, and no other instruction
writes it. -/
theorem ldIndexLoadsI : Obligations.LdIndexLoadsI := by
  refine ⟨fun nnn s => ⟨?_, _, exec_ldINnn nnn s, ?_, ?_, ?_⟩, fun i s t => exec_I_of_not_isLdI⟩
  · rw [ofNat_eq_formatNnn 0xA nnn 0xA000 rfl]
    exact decodeWord_formatNnn_Annn nnn
  · rw [State.setI_pc, State.advance_pc]
  · rw [State.setI_I, zextAddr_toNat]
  · obtain ⟨-, hstack, hmem, hdisp, hfault⟩ := sameBeyondRegisters_advance s
    exact ⟨sameRegisters_advance s, hstack, hmem, hdisp, hfault⟩

/-- Settles O9: the word is 0x7xkk in format XKK, and the step writes the narrowed sum to V[x] alone; after LD Vx, kk
the register it adds to reads kk. -/
theorem addImmediateWrapsWithoutAFlag : Obligations.AddImmediateWrapsWithoutAFlag := by
  intro x kk s
  refine ⟨?_, ⟨_, exec_addVxKk x kk s, ?_, ?_, fun r hr => ?_, sameBeyondRegisters_setV_advance s x _⟩,
    _, _, exec_ldVxKk x kk s, exec_addVxKk x kk _, ?_⟩
  · rw [ofNat_eq_formatXkk 0x7 x kk 0x7000 rfl]
    exact decodeWord_formatXkk_7xkk x kk
  · rw [State.setV_pc, State.advance_pc]
  · rw [State.setV_v, if_pos rfl, narrowSum_toNat]
  · rw [State.setV_v, if_neg hr, State.advance_v]
  · rw [State.setV_v, if_pos rfl, narrowSum_toNat, State.setV_v, if_pos rfl, Nat.two_mul]

/-- Settles O8: the word is 0x6xkk in format XKK, and the step writes kk to V[x] alone. -/
theorem ldImmediateLoadsVx : Obligations.LdImmediateLoadsVx := by
  intro x kk s
  refine ⟨?_, _, exec_ldVxKk x kk s, ?_, fun r => ?_, sameBeyondRegisters_setV_advance s x kk⟩
  · rw [ofNat_eq_formatXkk 0x6 x kk 0x6000 rfl]
    exact decodeWord_formatXkk_6xkk x kk
  · rw [State.setV_pc, State.advance_pc]
  · rw [State.setV_v, State.advance_v]

end Sys2Proof
end

section
/-! The register-to-register instructions but the two shifts (43_alu.md, R101 to R106 and R108). -/

namespace Sys2Proof

/-- The words 0x8xyn, by their low nibble (R54 (c), R55 rows 12 to 20). -/
theorem decodeWord_8xyn (x y n : Nibble) (c : Nat) (h : c = 0x8000 + n.toNat) :
    decodeWord (BitVec.ofNat 16 (c + 0x100 * x.toNat + 0x10 * y.toNat)) =
      if n = 0x0 then .instr (.ldVxVy x y)
      else if n = 0x1 then .instr (.or x y)
      else if n = 0x2 then .instr (.and x y)
      else if n = 0x3 then .instr (.xor x y)
      else if n = 0x4 then .instr (.addVxVy x y)
      else if n = 0x5 then .instr (.sub x y)
      else if n = 0x6 then .instr (.shr x y)
      else if n = 0x7 then .instr (.subn x y)
      else if n = 0xE then .instr (.shl x y)
      else .unlisted := by
  have hcls : formatXyn 0x8 x y n ≠ 0x00E0 := ne_cls_of_fieldOp_ne_zero (by simp)
  rw [ofNat_eq_formatXy 0x8 x y n c h, decodeWord_by_fields, if_neg hcls]
  simp

end Sys2Proof

namespace Sys2Proof.Machine

/-! What each instruction writes, read from the registers at the start of the step. -/

theorem exec_ldVxVy (x y : Nibble) (s : State) : exec (.ldVxVy x y) s = .next (s.advance.setV x (s.v y)) := rfl

theorem exec_or (x y : Nibble) (s : State) : exec (.or x y) s = .next (s.advance.setV x (s.v x ||| s.v y)) := rfl

theorem exec_and (x y : Nibble) (s : State) : exec (.and x y) s = .next (s.advance.setV x (s.v x &&& s.v y)) := rfl

theorem exec_xor (x y : Nibble) (s : State) : exec (.xor x y) s = .next (s.advance.setV x (s.v x ^^^ s.v y)) := rfl

theorem exec_addVxVy (x y : Nibble) (s : State) :
    exec (.addVxVy x y) s = .next ((s.advance.setV x (narrowSum (exactSum (s.v x) (s.v y)))).setV vf
      (flagByte (carry (exactSum (s.v x) (s.v y))))) := rfl

theorem exec_sub (x y : Nibble) (s : State) :
    exec (.sub x y) s = .next ((s.advance.setV x (narrowDiff (exactDiff (s.v x) (s.v y)))).setV vf
      (flagByte (noBorrow (exactDiff (s.v x) (s.v y))))) := rfl

theorem exec_subn (x y : Nibble) (s : State) :
    exec (.subn x y) s = .next ((s.advance.setV x (narrowDiff (exactDiff (s.v y) (s.v x)))).setV vf
      (flagByte (noBorrow (exactDiff (s.v y) (s.v x))))) := rfl

/-- Writing VF, the register 15, and no other. -/
theorem State.setV_vf_v (s : State) (f : Byte) (r : Nibble) :
    (s.setV vf f).v r = if r = 0xF#4 then f else s.v r :=
  s.setV_v vf r f

/-- The next state of an instruction that writes one register: pc has advanced, V[x] holds the result, and nothing else
has changed, VF included where x is not 15. -/
theorem exists_next_of_exec_setV {i : Instr} {s : State} {x : Nibble} {b : Byte}
    (h : exec i s = .next (s.advance.setV x b)) :
    ∃ t, exec i s = .next t ∧ t.pc = s.pc + 2 ∧ (∀ r, t.v r = if r = x then b else s.v r) ∧
      SameBeyondRegisters s t := by
  refine ⟨_, h, ?_, fun r => ?_, sameBeyondRegisters_setV_advance s x b⟩
  · rw [State.setV_pc, State.advance_pc]
  · rw [State.setV_v, State.advance_v]

/-- The next state of an instruction that writes one register, the result known bit by bit. -/
theorem exists_next_of_exec_setV_bits {i : Instr} {s : State} {x : Nibble} {b : Byte} {bit : Nat → Bool}
    (h : exec i s = .next (s.advance.setV x b)) (hbit : ∀ k, b.getLsbD k = bit k) :
    ∃ t, exec i s = .next t ∧ t.pc = s.pc + 2 ∧ (∀ k, (t.v x).getLsbD k = bit k) ∧
      (∀ r, r ≠ x → t.v r = s.v r) ∧ SameBeyondRegisters s t := by
  obtain ⟨t, ht, hpc, hv, hframe⟩ := exists_next_of_exec_setV h
  refine ⟨t, ht, hpc, fun k => ?_, fun r hr => ?_, hframe⟩
  · rw [hv, if_pos rfl, hbit]
  · rw [hv, if_neg hr]

/-- The next state of an instruction that writes its result and then the flag: the later write stands, so with x = 15
VF holds the flag and the result is lost (R100). -/
theorem exists_next_of_exec_setV_setV_vf {i : Instr} {s : State} {x : Nibble} {b f : Byte}
    (h : exec i s = .next ((s.advance.setV x b).setV vf f)) :
    ∃ t, exec i s = .next t ∧ t.pc = s.pc + 2 ∧ t.v 0xF#4 = f ∧ (x ≠ 0xF#4 → t.v x = b) ∧
      (∀ r, r ≠ x → r ≠ 0xF#4 → t.v r = s.v r) ∧ SameBeyondRegisters s t := by
  refine ⟨_, h, ?_, ?_, fun hx => ?_, fun r hr hf => ?_, (sameBeyondRegisters_setV_advance s x b).setV vf f⟩
  · rw [State.setV_pc, State.setV_pc, State.advance_pc]
  · rw [State.setV_vf_v, if_pos rfl]
  · rw [State.setV_vf_v, if_neg hx, State.setV_v, if_pos rfl]
  · rw [State.setV_vf_v, if_neg hf, State.setV_v, if_neg hr, State.advance_v]

/-- The next state of a subtraction `p - q` into V[x], whichever operand is subtracted (R106, R108). -/
theorem exists_next_of_exec_difference {i : Instr} {s : State} {x : Nibble} {p q : Byte}
    (h : exec i s = .next ((s.advance.setV x (narrowDiff (exactDiff p q))).setV vf
      (flagByte (noBorrow (exactDiff p q))))) :
    ∃ t, exec i s = .next t ∧ t.pc = s.pc + 2 ∧ t.v 0xF#4 = (if q.toNat ≤ p.toNat then 1 else 0) ∧
      (x ≠ 0xF#4 → ((t.v x).toNat : Int) = (p.toNat - q.toNat : Int) % 256) ∧
      (∀ r, r ≠ x → r ≠ 0xF#4 → t.v r = s.v r) ∧ SameBeyondRegisters s t := by
  obtain ⟨t, ht, hpc, hflag, hx, hothers, hframe⟩ := exists_next_of_exec_setV_setV_vf h
  refine ⟨t, ht, hpc, ?_, fun hne => ?_, hothers, hframe⟩
  · rw [hflag, flagByte_noBorrow]
  · rw [hx hne, narrowDiff_toNat]

end Sys2Proof.Machine

namespace Sys2Proof

open Machine

/-- Settles O15: the word is 0x8xy4, and the step writes the narrowed sum to V[x] and then the carry to VF. -/
theorem addRegisterWrapsAndVfIsTheCarry : Obligations.AddRegisterWrapsAndVfIsTheCarry := by
  intro x y s
  obtain ⟨t, ht, hpc, hflag, hx, hothers, hframe⟩ := exists_next_of_exec_setV_setV_vf (exec_addVxVy x y s)
  refine ⟨decodeWord_8xyn x y 0x4 _ rfl, t, ht, hpc, ?_, fun hne => ?_, hothers, hframe⟩
  · rw [hflag, flagByte_carry, exactSum]
  · rw [hx hne, narrowSum_toNat]

/-- Settles O16: the word is 0x8xy5, and the step is the subtraction V[x] - V[y]. -/
theorem subWrapsAndVfIsNoBorrow : Obligations.SubWrapsAndVfIsNoBorrow := fun x y s =>
  ⟨decodeWord_8xyn x y 0x5 _ rfl, exists_next_of_exec_difference (exec_sub x y s)⟩

/-- Settles O17: the word is 0x8xy7, and the step is the subtraction V[y] - V[x]. -/
theorem subnWrapsAndVfIsNoBorrow : Obligations.SubnWrapsAndVfIsNoBorrow := fun x y s =>
  ⟨decodeWord_8xyn x y 0x7 _ rfl, exists_next_of_exec_difference (exec_subn x y s)⟩

/-- Settles O11: the word is 0x8xy0, and the step writes V[y] to V[x] alone. -/
theorem ldRegisterCopiesVy : Obligations.LdRegisterCopiesVy := fun x y s =>
  ⟨decodeWord_8xyn x y 0x0 _ rfl, exists_next_of_exec_setV (exec_ldVxVy x y s)⟩

/-- Settles O12: the word is 0x8xy1, and the step writes the OR of the two registers to V[x] alone. -/
theorem orIsBitwiseWithoutAFlag : Obligations.OrIsBitwiseWithoutAFlag := fun x y s =>
  ⟨decodeWord_8xyn x y 0x1 _ rfl, exists_next_of_exec_setV_bits (exec_or x y s) fun _ => BitVec.getLsbD_or⟩

/-- Settles O13: the word is 0x8xy2, and the step writes the AND of the two registers to V[x] alone. -/
theorem andIsBitwiseWithoutAFlag : Obligations.AndIsBitwiseWithoutAFlag := fun x y s =>
  ⟨decodeWord_8xyn x y 0x2 _ rfl, exists_next_of_exec_setV_bits (exec_and x y s) fun _ => BitVec.getLsbD_and⟩

/-- Settles O14: the word is 0x8xy3, and the step writes the exclusive or of the two registers to V[x] alone. -/
theorem xorIsBitwiseWithoutAFlag : Obligations.XorIsBitwiseWithoutAFlag := fun x y s =>
  ⟨decodeWord_8xyn x y 0x3 _ rfl, exists_next_of_exec_setV_bits (exec_xor x y s) fun _ => BitVec.getLsbD_xor⟩

end Sys2Proof
end

section
/-! Clearing the display (44_display.md section 1, R120). -/

namespace Sys2Proof

/-- The row of CLS tests the full word (R54 (a)): no bit is masked out. -/
theorem selects_row_cls_iff (strict : Bool) (w : Word) :
    (Instr.cls.row strict).selects w = true ↔ w = 0x00E0 := by
  have hmask : w &&& 0xFFFF = w := BitVec.and_allOnes
  rw [Instr.row, OpcodeRow.selects, hmask, beq_iff_eq]

/-- A word that decodes to CLS has selected its row, so there is one such word. -/
theorem decodeWord_eq_cls_iff (w : Word) : decodeWord w = .instr .cls ↔ w = 0x00E0 := by
  constructor
  · intro h
    obtain ⟨-, hsel⟩ := firstSelected_eq_instr h
    exact (selects_row_cls_iff _ w).1 hsel
  · intro h
    rw [decodeWord_by_fields, if_pos h]

/-- CLS is the one row of the opcode map with the high nibble 0. -/
theorem decodeWord_eq_unlisted_of_fieldOp_zero {w : Word} (hop : fieldOp w = 0x0) (hcls : w ≠ 0x00E0) :
    decodeWord w = .unlisted := by
  rw [decodeWord_by_fields, if_neg hcls]
  simp [hop]

end Sys2Proof

namespace Sys2Proof.Machine

/-- CLS replaces the display by the cleared one and writes no flag. -/
theorem exec_cls (s : State) : exec .cls s = .next (s.advance.setDisp Disp.clear) := rfl

end Sys2Proof.Machine

namespace Sys2Proof

open Machine

/-- Settles O21: the decoder knows 0x00E0 alone among the words 0x0nnn, and the step replaces the display after the
advance of pc, whose frame is known. -/
theorem clsClearsEveryPixel : Obligations.ClsClearsEveryPixel := by
  refine ⟨(decodeWord_eq_cls_iff _).2 rfl, fun w => (decodeWord_eq_cls_iff w).1,
    fun _ => decodeWord_eq_unlisted_of_fieldOp_zero, fun s => ⟨_, exec_cls s, ?_, fun px py => ?_, ?_⟩⟩
  · rw [State.setDisp_pc, State.advance_pc]
  · rw [State.setDisp_pixel, Disp.clear_get]
  · obtain ⟨hI, hstack, hmem, -, hfault⟩ := sameBeyondRegisters_advance s
    exact ⟨sameRegisters_advance s, hI, hstack, hmem, hfault⟩

end Sys2Proof
end

section
/-! The decoder as the one candidate that a word selects, and the encoder as its inverse (30_encoding.md sections 2, 3,
5, 6 and 7). -/

namespace Sys2Proof

/-! ### The rows are disjoint -/

/-- The constructor whose row a word selects, by the high and the low nibble: the opcode map (R55) read backwards. Where
no row has these nibbles the number stands for nothing. -/
def rowIndex (op n : Nibble) : Nat :=
  match op.toNat, n.toNat with
  | 0xA, _ => 9
  | 0xD, _ => 10
  | 0x9, _ => 8
  | 0x8, 0xE => 19
  | 0x8, k => 11 + k
  | k, _ => k

/-- A selected row is the one that the nibbles of the word name, whichever way `STRICT_LOW_NIBBLE` is set. -/
theorem ctorIdx_eq_rowIndex_of_selects {strict : Bool} {w : Word} {i : Instr} (h : (i.row strict).selects w = true) :
    i.ctorIdx = rowIndex (fieldOp w) (fieldN w) := by
  cases i with
  | cls =>
    rw [(selects_row_cls_iff strict w).1 h]
    decide
  | jp => rw [(selects_F000_iff 0x1 _ w (by decide)).1 h]; rfl
  | call => rw [(selects_F000_iff 0x2 _ w (by decide)).1 h]; rfl
  | seVxKk => rw [(selects_F000_iff 0x3 _ w (by decide)).1 h]; rfl
  | sneVxKk => rw [(selects_F000_iff 0x4 _ w (by decide)).1 h]; rfl
  | seVxVy =>
    cases strict
    · rw [(selects_F000_iff 0x5 _ w (by decide)).1 h]; rfl
    · rw [((selects_F00F_iff 0x5 0x0 _ w (by decide)).1 h).1]; rfl
  | ldVxKk => rw [(selects_F000_iff 0x6 _ w (by decide)).1 h]; rfl
  | addVxKk => rw [(selects_F000_iff 0x7 _ w (by decide)).1 h]; rfl
  | sneVxVy =>
    cases strict
    · rw [(selects_F000_iff 0x9 _ w (by decide)).1 h]; rfl
    · rw [((selects_F00F_iff 0x9 0x0 _ w (by decide)).1 h).1]; rfl
  | ldINnn => rw [(selects_F000_iff 0xA _ w (by decide)).1 h]; rfl
  | drw => rw [(selects_F000_iff 0xD _ w (by decide)).1 h]; rfl
  | ldVxVy => obtain ⟨hop, hn⟩ := (selects_F00F_iff 0x8 0x0 _ w (by decide)).1 h; rw [hop, hn]; rfl
  | or => obtain ⟨hop, hn⟩ := (selects_F00F_iff 0x8 0x1 _ w (by decide)).1 h; rw [hop, hn]; rfl
  | and => obtain ⟨hop, hn⟩ := (selects_F00F_iff 0x8 0x2 _ w (by decide)).1 h; rw [hop, hn]; rfl
  | xor => obtain ⟨hop, hn⟩ := (selects_F00F_iff 0x8 0x3 _ w (by decide)).1 h; rw [hop, hn]; rfl
  | addVxVy => obtain ⟨hop, hn⟩ := (selects_F00F_iff 0x8 0x4 _ w (by decide)).1 h; rw [hop, hn]; rfl
  | sub => obtain ⟨hop, hn⟩ := (selects_F00F_iff 0x8 0x5 _ w (by decide)).1 h; rw [hop, hn]; rfl
  | shr => obtain ⟨hop, hn⟩ := (selects_F00F_iff 0x8 0x6 _ w (by decide)).1 h; rw [hop, hn]; rfl
  | subn => obtain ⟨hop, hn⟩ := (selects_F00F_iff 0x8 0x7 _ w (by decide)).1 h; rw [hop, hn]; rfl
  | shl => obtain ⟨hop, hn⟩ := (selects_F00F_iff 0x8 0xE _ w (by decide)).1 h; rw [hop, hn]; rfl

/-- A word has one candidate of each constructor, so the constructor tells the candidate. -/
theorem candidates_nodup_ctorIdx (w : Word) : ((candidates w).map Instr.ctorIdx).Nodup := by
  have h : (candidates w).map Instr.ctorIdx =
      [0, 1, 2, 3, 4, 6, 7, 9, 10, 5, 8, 11, 12, 13, 14, 15, 16, 17, 18, 19] := rfl
  rw [h]
  decide

/-- Of the candidates of a word, at most one is selected. -/
theorem candidate_unique {strict : Bool} {w : Word} {i j : Instr} (hi : i ∈ candidates w) (hj : j ∈ candidates w)
    (hsi : (i.row strict).selects w = true) (hsj : (j.row strict).selects w = true) : i = j :=
  List.inj_on_of_nodup_map (candidates_nodup_ctorIdx w) hi hj
    ((ctorIdx_eq_rowIndex_of_selects hsi).trans (ctorIdx_eq_rowIndex_of_selects hsj).symm)

/-- Where the list holds the candidates of the word, in whatever order, the first selected is the selected one. -/
theorem firstSelected_eq_instr_iff {strict : Bool} {w : Word} {i : Instr} {l : List Instr}
    (hl : l.Perm (candidates w)) :
    firstSelected strict w l = .instr i ↔ i ∈ candidates w ∧ (i.row strict).selects w = true := by
  refine ⟨fun h => ?_, fun ⟨hi, hsel⟩ => ?_⟩
  · obtain ⟨hmem, hsel⟩ := firstSelected_eq_instr h
    exact ⟨hl.mem_iff.1 hmem, hsel⟩
  · cases h : firstSelected strict w l with
    | unlisted => simp [firstSelected_eq_unlisted_iff.1 h i (hl.mem_iff.2 hi)] at hsel
    | instr j =>
      obtain ⟨hj, hselj⟩ := firstSelected_eq_instr h
      rw [candidate_unique (hl.mem_iff.1 hj) hi hselj hsel]

/-- The decoder answers exactly the candidate that the word selects. -/
theorem decodeWordWith_eq_instr_iff {strict : Bool} {w : Word} {i : Instr} :
    decodeWordWith strict w = .instr i ↔ i ∈ candidates w ∧ (i.row strict).selects w = true :=
  firstSelected_eq_instr_iff (List.Perm.refl _)

/-- The order of the tests cannot change the result (R54). -/
theorem firstSelected_of_perm {strict : Bool} {w : Word} {l : List Instr} (hl : l.Perm (candidates w)) :
    firstSelected strict w l = decodeWordWith strict w := by
  cases h : decodeWordWith strict w with
  | instr i => exact (firstSelected_eq_instr_iff hl).2 (decodeWordWith_eq_instr_iff.1 h)
  | unlisted =>
    exact firstSelected_eq_unlisted_iff.2 fun i hi => firstSelected_eq_unlisted_iff.1 h i (hl.mem_iff.1 hi)

/-- Settles O28: the nibbles of a word name the constructor of a row it selects, and a word has one candidate of each
constructor. -/
theorem opcodeRowsAreDisjoint : Obligations.OpcodeRowsAreDisjoint := fun _ _ =>
  ⟨fun _ _ hi hj => (ctorIdx_eq_rowIndex_of_selects hi).trans (ctorIdx_eq_rowIndex_of_selects hj).symm,
    fun _ hi _ hj => candidate_unique hi hj, fun _ => firstSelected_of_perm⟩

/-! ### Decoding an encoded instruction -/

/-- The word of an instruction holds its operands in their fields, so the instruction is a candidate of its word. -/
theorem mem_candidates_encode (i : Instr) : i ∈ candidates (encode i) := by
  cases i <;> simp [candidates, encode]

/-- The word of an instruction selects the instruction's row. -/
theorem selects_row_encode (i : Instr) : Laws.OwnRow.Statement i := by
  cases i with
  | cls => exact Laws.OwnRow.cls
  | jp nnn => exact Laws.OwnRow.jp nnn
  | call nnn => exact Laws.OwnRow.call nnn
  | seVxKk x kk => exact Laws.OwnRow.seVxKk x kk
  | sneVxKk x kk => exact Laws.OwnRow.sneVxKk x kk
  | seVxVy x y => exact Laws.OwnRow.seVxVy x y
  | ldVxKk x kk => exact Laws.OwnRow.ldVxKk x kk
  | addVxKk x kk => exact Laws.OwnRow.addVxKk x kk
  | sneVxVy x y => exact Laws.OwnRow.sneVxVy x y
  | ldINnn nnn => exact Laws.OwnRow.ldINnn nnn
  | drw x y n => exact Laws.OwnRow.drw x y n
  | ldVxVy x y => exact Laws.OwnRow.ldVxVy x y
  | or x y => exact Laws.OwnRow.or x y
  | and x y => exact Laws.OwnRow.and x y
  | xor x y => exact Laws.OwnRow.xor x y
  | addVxVy x y => exact Laws.OwnRow.addVxVy x y
  | sub x y => exact Laws.OwnRow.sub x y
  | shr x y => exact Laws.OwnRow.shr x y
  | subn x y => exact Laws.OwnRow.subn x y
  | shl x y => exact Laws.OwnRow.shl x y

/-- No bit of an encoding is dropped. -/
@[simp] theorem decodeWord_encode (i : Instr) : decodeWord (encode i) = .instr i :=
  decodeWordWith_eq_instr_iff.2 ⟨mem_candidates_encode i, selects_row_encode i _⟩

/-- The bytes of a word, read back high byte first, are the word. -/
theorem wordOfBytes_bytes (w : Word) : wordOfBytes (w.extractLsb' 8 8) (w.extractLsb' 0 8) = w := by
  apply BitVec.eq_of_toNat_eq
  have := w.isLt
  rw [wordOfBytes_toNat, BitVec.extractLsb'_toNat, BitVec.extractLsb'_toNat]
  simp only [Nat.shiftRight_eq_div_pow]
  omega

/-- Settles O30: the instruction is a candidate of its own word and the word selects its row, which no other candidate
shares; the two bytes of the word read back as the word. -/
theorem decodeOfEncodeIsTheInstruction : Obligations.DecodeOfEncodeIsTheInstruction := by
  intro i rest _
  refine ⟨decodeWord_encode i, ?_⟩
  show some (decodeWord (wordOfBytes ((encode i).extractLsb' 8 8) ((encode i).extractLsb' 0 8)), rest) = _
  rw [wordOfBytes_bytes, decodeWord_encode]

/-! ### Encoding a decoded word -/

/-- A word that selects a row of the high nibble, written in format NNN from its own fields. -/
theorem formatNnn_eq_of_selects (op : Nibble) {v w : Word} (hv : v = formatXyn op 0 0 0)
    (h : (OpcodeRow.mk 0xF000 v).selects w = true) : formatNnn op (fieldNnn w) = w := by
  apply BitVec.eq_of_toNat_eq
  rw [← (selects_F000_iff op v w hv).1 h, formatNnn_toNat, fieldOp_toNat_eq_div, fieldNnn_toNat]
  omega

/-- The same in format XKK. -/
theorem formatXkk_eq_of_selects (op : Nibble) {v w : Word} (hv : v = formatXyn op 0 0 0)
    (h : (OpcodeRow.mk 0xF000 v).selects w = true) : formatXkk op (fieldX w) (fieldKk w) = w := by
  apply BitVec.eq_of_toNat_eq
  rw [← (selects_F000_iff op v w hv).1 h, formatXkk_toNat, fieldOp_toNat_eq_div, fieldX_toNat, fieldKk_toNat]
  omega

/-- The fields of a word in format XYN are the whole word. -/
theorem formatXyn_fields (w : Word) : formatXyn (fieldOp w) (fieldX w) (fieldY w) (fieldN w) = w := by
  apply BitVec.eq_of_toNat_eq
  rw [formatXyn_toNat, fieldOp_toNat_eq_div, fieldX_toNat, fieldY_toNat, fieldN_toNat]
  omega

/-- A word that selects a row of the high nibble, in format XYN. -/
theorem formatXyn_eq_of_selects (op : Nibble) {v w : Word} (hv : v = formatXyn op 0 0 0)
    (h : (OpcodeRow.mk 0xF000 v).selects w = true) : formatXyn op (fieldX w) (fieldY w) (fieldN w) = w := by
  rw [← (selects_F000_iff op v w hv).1 h]
  exact formatXyn_fields w

/-- A word that selects a row of the high and the low nibble, in format XY. -/
theorem formatXy_eq_of_selects (op n : Nibble) {v w : Word} (hv : v = formatXyn op 0 0 n)
    (h : (OpcodeRow.mk 0xF00F v).selects w = true) : formatXyn op (fieldX w) (fieldY w) n = w := by
  obtain ⟨hop, hn⟩ := (selects_F00F_iff op n v w hv).1 h
  rw [← hop, ← hn]
  exact formatXyn_fields w

/-- The candidate that a word selects encodes to the word: the row's nibbles are those the encoder writes, and the
operands are fields of the word. -/
theorem encode_of_selects (w : Word) : ∀ i ∈ candidates w, (i.row true).selects w = true → encode i = w := by
  simp only [candidates, List.forall_mem_cons]
  refine ⟨fun h => ((selects_row_cls_iff true w).1 h).symm,
    formatNnn_eq_of_selects 0x1 (by decide), formatNnn_eq_of_selects 0x2 (by decide),
    formatXkk_eq_of_selects 0x3 (by decide), formatXkk_eq_of_selects 0x4 (by decide),
    formatXkk_eq_of_selects 0x6 (by decide), formatXkk_eq_of_selects 0x7 (by decide),
    formatNnn_eq_of_selects 0xA (by decide), formatXyn_eq_of_selects 0xD (by decide),
    formatXy_eq_of_selects 0x5 0x0 (by decide), formatXy_eq_of_selects 0x9 0x0 (by decide),
    formatXy_eq_of_selects 0x8 0x0 (by decide), formatXy_eq_of_selects 0x8 0x1 (by decide),
    formatXy_eq_of_selects 0x8 0x2 (by decide), formatXy_eq_of_selects 0x8 0x3 (by decide),
    formatXy_eq_of_selects 0x8 0x4 (by decide), formatXy_eq_of_selects 0x8 0x5 (by decide),
    formatXy_eq_of_selects 0x8 0x6 (by decide), formatXy_eq_of_selects 0x8 0x7 (by decide),
    formatXy_eq_of_selects 0x8 0xE (by decide), by simp⟩

/-- Settles O31: the decoder answers the candidate that the word selects, which encodes to the word. -/
theorem encodeOfDecodeIsTheWord : Obligations.EncodeOfDecodeIsTheWord := by
  intro w i h
  obtain ⟨hi, hsel⟩ := decodeWordWith_eq_instr_iff.1 h
  exact encode_of_selects w i hi hsel

/-! ### The unlisted words -/

/-- A test of the decoder that holds answers an instruction, so `unlisted` is answered by the tests after it. -/
theorem ite_instr_eq_unlisted_iff {c : Prop} [Decidable c] {i : Instr} {d : Decoded} :
    (if c then .instr i else d) = Decoded.unlisted ↔ ¬ c ∧ d = .unlisted := by
  split_ifs with hc <;> simp [hc]

/-- Settles O26: a word other than that of CLS is unlisted where every test of its nibbles fails, and those nibbles are
the table's. -/
theorem unlistedWordsAreThoseOfTheTable : Obligations.UnlistedWordsAreThoseOfTheTable := by
  intro w
  rw [decodeWord_by_fields]
  simp only [ite_instr_eq_unlisted_iff]
  by_cases hcls : w = 0x00E0
  · subst hcls
    decide
  · simp only [hcls, ne_eq, not_false_eq_true, true_and, and_true]
    generalize fieldOp w = op
    generalize fieldN w = n
    revert op n
    decide

/-- With the low nibble out of the mask, every word 0x5xyN is SE Vx, Vy (R57). -/
theorem decodeWordWith_false_5xyn (x y n : Nibble) :
    decodeWordWith false (formatXyn 0x5 x y n) = .instr (.seVxVy x y) :=
  decodeWordWith_eq_instr_iff.2
    ⟨by simp [candidates], (selects_F000_iff 0x5 _ _ (by decide)).2 (fieldOp_formatXyn ..)⟩

/-- With the low nibble out of the mask, every word 0x9xyN is SNE Vx, Vy (R57). -/
theorem decodeWordWith_false_9xyn (x y n : Nibble) :
    decodeWordWith false (formatXyn 0x9 x y n) = .instr (.sneVxVy x y) :=
  decodeWordWith_eq_instr_iff.2
    ⟨by simp [candidates], (selects_F000_iff 0x9 _ _ (by decide)).2 (fieldOp_formatXyn ..)⟩

/-- With the low nibble in the mask, a word 0x5xyN or 0x9xyN with N not 0 is no instruction (R57). -/
theorem decodeWordWith_true_eq_unlisted {w : Word} (hop : fieldOp w = 0x5 ∨ fieldOp w = 0x9) (hn : fieldN w ≠ 0) :
    decodeWordWith true w = .unlisted :=
  (unlistedWordsAreThoseOfTheTable w).2 (.inr (.inl ⟨hop, hn⟩))

/-- Settles O29: the words in format XYN have the high nibble 5 or 9 and the low nibble n, and R57's mask decides
whether the low one is tested. -/
theorem lowNibbleOfTheRegisterSkips : Obligations.LowNibbleOfTheRegisterSkips := by
  intro x y n hn
  rw [ofNat_eq_formatXyn 0x5 x y n 0x5000 rfl, ofNat_eq_formatXyn 0x9 x y n 0x9000 rfl]
  have hlow : ∀ op, fieldN (formatXyn op x y n) ≠ 0 := fun op => by rwa [fieldN_formatXyn]
  exact ⟨decodeWordWith_true_eq_unlisted (.inl (fieldOp_formatXyn ..)) (hlow 0x5),
    decodeWordWith_true_eq_unlisted (.inr (fieldOp_formatXyn ..)) (hlow 0x9),
    decodeWordWith_false_5xyn x y n, decodeWordWith_false_9xyn x y n⟩

end Sys2Proof
end

section
/-! What an instruction does, said once for all twenty: it raises its fault, or it completes and writes what
10_state.md section 13 lets it write. -/

namespace Sys2Proof.Machine

/-! ### The two instructions that can fault -/

/-- CALL with a free slot. -/
theorem exec_call_of_room {nnn : Addr} {s : State} (h : s.sp.toNat < 16) :
    ∃ u, s.advance.push (s.pc + 2) = some u ∧ exec (.call nnn) s = .next (u.jump (zextAddr nnn)) := by
  obtain hu | ⟨hfull, -⟩ := exec_call_cases nnn s
  · exact hu
  · omega

/-- CALL on a full stack. -/
theorem exec_call_of_full {nnn : Addr} {s : State} (h : 16 ≤ s.sp.toNat) :
    exec (.call nnn) s = .next (s.raise .stackOverflow) := by
  obtain ⟨u, hu, -⟩ | ⟨-, he⟩ := exec_call_cases nnn s
  · obtain ⟨hroom, -⟩ := State.push_eq_some_iff.1 hu
    rw [State.advance_sp] at hroom
    omega
  · exact he

/-- A sprite is in range unless one of its rows lies beyond memory. -/
theorem State.not_spriteInRange_iff {s : State} {n : Nibble} :
    ¬ s.SpriteInRange n ↔ 0 < n.toNat ∧ 0xFFF < s.I.toNat + (n.toNat - 1) := by
  rw [State.SpriteInRange]
  omega

/-- DRW where its rows were read. -/
theorem exec_drw_of_spriteBytes {x y n : Nibble} {s : State} {rows : List Byte} (h : s.spriteBytes n = some rows) :
    exec (.drw x y n) s =
      .next ((s.advance.setDisp (drawRows (startColumn (s.v x)) (startRow (s.v y)) rows ⟨s.disp, false⟩).disp).setV vf
        (flagByte (drawRows (startColumn (s.v x)) (startRow (s.v y)) rows ⟨s.disp, false⟩).hit)) := by
  simp only [exec, execDrw, h]

/-- DRW with a row beyond memory. -/
theorem exec_drw_of_not_spriteInRange {x y n : Nibble} {s : State} (h : ¬ s.SpriteInRange n) :
    exec (.drw x y n) s = .next (s.raise .dataReadOutOfRange) := by
  simp only [exec, execDrw, State.spriteBytes_eq_none_iff.2 (State.not_spriteInRange_iff.1 h)]

/-- The rows of a sprite that was read lie inside memory. -/
theorem State.spriteInRange_of_spriteBytes {s : State} {n : Nibble} {rows : List Byte}
    (h : s.spriteBytes n = some rows) : s.SpriteInRange n := by
  by_contra hn
  rw [State.spriteBytes_eq_none_iff.2 (State.not_spriteInRange_iff.1 hn)] at h
  cases h

/-! ### Every instruction -/

/-- Where pc can be after an instruction at `a` that completes (10_state.md section 5). -/
def nextPcs (a : Word) : Instr → List Word
  | .jp nnn | .call nnn => [zextAddr nnn]
  | .seVxKk _ _ | .sneVxKk _ _ | .seVxVy _ _ | .sneVxVy _ _ => [a + 4, a + 2]
  | .cls | .ldINnn _ | .drw _ _ _ | .ldVxKk _ _ | .addVxKk _ _ | .ldVxVy _ _ | .or _ _ | .and _ _ | .xor _ _ => [a + 2]
  | .addVxVy _ _ | .sub _ _ | .shr _ _ | .subn _ _ | .shl _ _ => [a + 2]

/-- What an instruction that completes leaves in each component of the state. -/
structure Completes (i : Instr) (s t : State) : Prop where
  fault : t.fault = s.fault
  mem : t.mem = s.mem
  pc : t.pc ∈ nextPcs s.pc i
  index : t.I = s.I ∨ ∃ nnn, i = .ldINnn nnn ∧ t.I = zextAddr nnn
  stack : isCall i = false → t.stack = s.stack ∧ t.sp = s.sp
  push : isCall i = true → s.push (s.pc + 2) = some { s with stack := t.stack, sp := t.sp }
  disp : writesDisplay i = false → t.disp = s.disp
  sprite : ∀ x y n, i = .drw x y n → s.SpriteInRange n
  registers : ∀ r, destination i ≠ some r → (writesFlag i = true → r ≠ 0xF#4) → t.v r = s.v r

/-- An instruction with a destination register is none of the others. -/
theorem of_destination {i : Instr} {x : Nibble} (hd : destination i = some x) :
    isCall i = false ∧ (∀ x y n, i ≠ .drw x y n) ∧ ∀ a, nextPcs a i = [a + 2] := by
  cases i <;> simp [destination, isCall, nextPcs] at hd ⊢

/-- An instruction that advances pc and writes its destination register, and VF if it is a flag-writing one. -/
theorem completes_of_destination {i : Instr} {s t : State} {x : Nibble} (hd : destination i = some x)
    (hframe : t = { s.advance with V := t.V })
    (hregisters : ∀ r, r ≠ x → (writesFlag i = true → r ≠ 0xF#4) → t.v r = s.v r) : Completes i s t := by
  obtain ⟨hcall, hdrw, hpcs⟩ := of_destination hd
  rw [hframe]
  exact
    { fault := rfl
      mem := rfl
      pc := by rw [hpcs]; exact List.mem_singleton_self _
      index := .inl rfl
      stack := fun _ => ⟨rfl, rfl⟩
      push := fun h => absurd h (by simp [hcall])
      disp := fun _ => rfl
      sprite := fun x y n h => absurd h (hdrw x y n)
      registers := fun r hr => hregisters r fun e => hr (e ▸ hd) }

/-- Everything an instruction can do. -/
theorem exec_cases {i : Instr} {s t : State} (h : exec i s = .next t) :
    (t = s.raise .stackOverflow ∧ ∃ nnn, i = .call nnn ∧ 16 ≤ s.sp.toNat) ∨
    (t = s.raise .dataReadOutOfRange ∧ ∃ x y n, i = .drw x y n ∧ ¬ s.SpriteInRange n) ∨ Completes i s t := by
  cases i with
  | call nnn =>
    obtain ⟨u, hu, he⟩ | ⟨hfull, he⟩ := exec_call_cases nnn s
    · obtain ⟨hroom, rfl⟩ := State.push_eq_some_iff.1 hu
      cases he.symm.trans h
      refine .inr (.inr ⟨rfl, rfl, List.mem_singleton_self _, .inl rfl, nofun, fun _ => ?_, fun _ => rfl, nofun,
        fun _ _ _ => rfl⟩)
      exact State.push_eq_some_iff.2 ⟨hroom, rfl⟩
    · cases he.symm.trans h
      exact .inl ⟨rfl, nnn, rfl, hfull⟩
  | drw x y n =>
    obtain ⟨rows, c, hrows, -, he⟩ | ⟨hn, hfar, he⟩ := exec_drw_cases x y n s
    · cases he.symm.trans h
      refine .inr (.inr ⟨rfl, rfl, List.mem_singleton_self _, .inl rfl, fun _ => ⟨rfl, rfl⟩, nofun, nofun, ?_,
        fun r _ hvf => ?_⟩)
      · rintro _ _ _ ⟨⟩
        exact State.spriteInRange_of_spriteBytes hrows
      · rw [State.setV_vf_v, if_neg (hvf rfl), State.setDisp_v, State.advance_v]
    · cases he.symm.trans h
      exact .inr (.inl ⟨rfl, x, y, n, rfl, State.not_spriteInRange_iff.2 ⟨hn, hfar⟩⟩)
  | seVxKk | sneVxKk | seVxVy | sneVxVy =>
    cases h
    refine .inr (.inr ⟨State.skipIf_fault .., State.skipIf_mem .., ?_, .inl (State.skipIf_I ..),
      fun _ => ⟨State.skipIf_stack .., State.skipIf_sp ..⟩, nofun, fun _ => State.skipIf_disp .., nofun,
      fun _ _ _ => State.skipIf_v ..⟩)
    rw [State.skipIf_advance_pc]
    split <;> simp [nextPcs]
  | cls | jp =>
    cases h
    exact .inr (.inr ⟨rfl, rfl, List.mem_singleton_self _, .inl rfl, fun _ => ⟨rfl, rfl⟩, nofun,
      by simp [writesDisplay], nofun, fun _ _ _ => rfl⟩)
  | ldINnn nnn =>
    cases h
    exact .inr (.inr ⟨rfl, rfl, List.mem_singleton_self _, .inr ⟨nnn, rfl, rfl⟩, fun _ => ⟨rfl, rfl⟩, nofun,
      fun _ => rfl, nofun, fun _ _ _ => rfl⟩)
  | ldVxKk x | addVxKk x | ldVxVy x | or x | and x | xor x =>
    cases h
    refine .inr (.inr (completes_of_destination rfl rfl fun r hr _ => ?_))
    rw [State.setV_v, if_neg hr, State.advance_v]
  | addVxVy x | sub x | subn x =>
    cases h
    refine .inr (.inr (completes_of_destination rfl rfl fun r hr hvf => ?_))
    rw [State.setV_vf_v, if_neg (hvf rfl), State.setV_v, if_neg hr, State.advance_v]
  | shr x | shl x =>
    cases h
    refine .inr (.inr (completes_of_destination rfl rfl fun r hr hvf => ?_))
    rw [State.setV_v, if_neg hr, State.setV_vf_v, if_neg (hvf rfl), State.advance_v]

/-- Every instruction answers a next state: its fault is taken into the latch (R132). -/
theorem exists_exec_eq_next (i : Instr) (s : State) : ∃ t, exec i s = .next t := by
  cases i with
  | call nnn => obtain ⟨u, -, he⟩ | ⟨-, he⟩ := exec_call_cases nnn s <;> exact ⟨_, he⟩
  | drw x y n => obtain ⟨_, _, -, -, he⟩ | ⟨-, -, he⟩ := exec_drw_cases x y n s <;> exact ⟨_, he⟩
  | cls | jp | seVxKk | sneVxKk | seVxVy | sneVxVy | ldVxKk | addVxKk | ldINnn => exact ⟨_, rfl⟩
  | ldVxVy | or | and | xor | addVxVy | sub | shr | subn | shl => exact ⟨_, rfl⟩

end Sys2Proof.Machine

namespace Sys2Proof

open Machine

/-! ### What an instruction writes -/

/-- Settles O39: a fault writes the latch alone, and an instruction that completes writes what its class says. -/
theorem onlyTheNamedInstructionsWrite : Obligations.OnlyTheNamedInstructionsWrite := by
  intro i s t h
  obtain ⟨rfl, -⟩ | ⟨rfl, -⟩ | hc := exec_cases h
  · exact ⟨rfl, fun _ => ⟨rfl, fun _ => rfl⟩, fun _ => rfl, fun _ _ _ => rfl⟩
  · exact ⟨rfl, fun _ => ⟨rfl, fun _ => rfl⟩, fun _ => rfl, fun _ _ _ => rfl⟩
  · refine ⟨hc.mem, fun hi => ?_, fun hi => exec_I_of_not_isLdI hi h, fun hi px py => ?_⟩
    · obtain ⟨hstack, hsp⟩ := hc.stack hi
      exact ⟨hsp, fun k => by rw [State.slot, hstack, State.slot]⟩
    · rw [State.pixel, hc.disp hi, State.pixel]

/-- Settles O40: a fault writes no register. -/
theorem onlyTheDestinationAndVfChange : Obligations.OnlyTheDestinationAndVfChange := by
  intro i s t r h hdest hvf
  obtain ⟨rfl, -⟩ | ⟨rfl, -⟩ | hc := exec_cases h
  · exact s.raise_v _ r
  · exact s.raise_v _ r
  · exact hc.registers r hdest hvf

/-- Settles O41: a fault leaves pc, and an instruction that completes leaves it at one of its next addresses. -/
theorem pcAfterAnInstruction : Obligations.PcAfterAnInstruction := by
  intro i s t h0 h
  obtain ⟨rfl, -⟩ | ⟨rfl, -⟩ | hc := exec_cases h
  · exact ⟨fun _ => rfl, nofun⟩
  · exact ⟨fun _ => rfl, nofun⟩
  · refine ⟨fun hf => absurd (hc.fault.trans h0) hf, fun _ => ?_⟩
    have hpc := hc.pc
    cases i with
    | jp nnn | call nnn => rw [List.mem_singleton.1 hpc]; exact zextAddr_toNat nnn
    | seVxKk | sneVxKk | seVxVy | sneVxVy => simpa [nextPcs, or_comm] using hpc
    | cls | ldVxKk | addVxKk | ldINnn | drw | ldVxVy => exact List.mem_singleton.1 hpc
    | or | and | xor | addVxVy | sub | shr | subn | shl => exact List.mem_singleton.1 hpc

end Sys2Proof
end

section
/-! What a step does, said once, and the rules of the whole machine that follow (40_step_cycle.md, 60_exceptions.md,
10_state.md sections 6 and 14). -/

namespace Sys2Proof.Machine

/-- A machine with a fault recorded stays as it is (R77). -/
theorem step_of_fault {s : State} (h : s.fault ≠ none) : step s = .next s := by
  obtain ⟨f, hf⟩ := Option.ne_none_iff_exists'.1 h
  rw [step, hf]

end Sys2Proof.Machine

namespace Sys2Proof

open Machine

/-- Settles O38: the step asks the latch first (R77). -/
theorem aFaultedMachineDoesNotMove : Obligations.AFaultedMachineDoesNotMove := fun _ => step_of_fault

/-- Settles O35: a faulted machine stays, a fetch out of range is latched, and the two kinds of word answer a state. -/
theorem everyStepAnswersANextState : Obligations.EveryStepAnswersANextState := by
  intro s
  cases h0 : s.fault with
  | some f => exact ⟨s, step_of_fault (by simp [h0])⟩
  | none =>
    cases hf : s.fetch with
    | none => exact ⟨_, step_of_fetch_none h0 hf⟩
    | some w =>
      cases hd : decodeWord w with
      | unlisted => exact ⟨_, step_of_unlisted h0 hf hd⟩
      | instr i =>
        obtain ⟨t, ht⟩ := exists_exec_eq_next i s
        exact ⟨t, (step_of_instr h0 hf hd).trans ht⟩

end Sys2Proof

namespace Sys2Proof.Machine

/-- What a step does: a faulted machine stays (R77), a fault is latched, an unlisted word advances pc, and any other
word's instruction completes. -/
theorem step_effect {s t : State} (h : step s = .next t) :
    (s.fault ≠ none ∧ t = s) ∨ (s.fault = none ∧ ∃ cause, t = s.raise cause) ∨
    (s.fault = none ∧ s.pc < fetchFaultMin ∧ (t = s.advance ∨ ∃ i, Completes i s t)) := by
  obtain hstay | ⟨h0, -, rfl⟩ | ⟨w, h0, hf, -, rfl⟩ | ⟨w, i, h0, hf, -, he⟩ := step_cases h
  · exact .inl hstay
  · exact .inr (.inl ⟨h0, _, rfl⟩)
  · exact .inr (.inr ⟨h0, (State.fetch_eq_some hf).1, .inl rfl⟩)
  · obtain ⟨rfl, -⟩ | ⟨rfl, -⟩ | hc := exec_cases he
    · exact .inr (.inl ⟨h0, _, rfl⟩)
    · exact .inr (.inl ⟨h0, _, rfl⟩)
    · exact .inr (.inr ⟨h0, (State.fetch_eq_some hf).1, .inr ⟨i, hc⟩⟩)

/-- A completed instruction leaves sp and the slots, or has pushed on them the address after it. -/
theorem Completes.stack_cases {i : Instr} {s t : State} (hc : Completes i s t) :
    (t.sp = s.sp ∧ ∀ k, t.slot k = s.slot k) ∨
    (t.sp.toNat = s.sp.toNat + 1 ∧ s.sp.toNat < 16 ∧
      ∀ k, t.slot k = if s.sp.toNat = k.val then s.pc + 2 else s.slot k) := by
  cases hi : isCall i with
  | false =>
    obtain ⟨hstack, hsp⟩ := hc.stack hi
    exact .inl ⟨hsp, fun k => by rw [State.slot, hstack, State.slot]⟩
  | true =>
    have hpush := hc.push hi
    obtain ⟨hroom, -⟩ := State.push_eq_some_iff.1 hpush
    have hsp := State.push_sp hpush
    have hslot := State.push_slot hpush
    exact .inr ⟨hsp, hroom, hslot⟩

/-! ### The slots are not read -/

/-- A skip reads no slot. -/
theorem State.skipIf_withSlots (s : State) (slots : Vector Word Config.stackDepth) (c : Bool) :
    (s.withSlots slots).advance.skipIf c = (s.advance.skipIf c).withSlots slots := by
  cases c <;> rfl

/-- An instruction that finds other slots leaves other slots and the same machine beside them. -/
theorem exec_withSlots {i : Instr} {s t : State} (h : exec i s = .next t) (slots : Vector Word Config.stackDepth) :
    ∃ slots', exec i (s.withSlots slots) = .next (t.withSlots slots') := by
  cases i with
  | call nnn =>
    by_cases hroom : s.sp.toNat < 16
    · obtain ⟨u, hu, he⟩ := exec_call_of_room (nnn := nnn) hroom
      obtain ⟨u', hu', he'⟩ := exec_call_of_room (nnn := nnn) (s := s.withSlots slots) hroom
      obtain ⟨_, rfl⟩ := State.push_eq_some_iff.1 hu
      obtain ⟨_, rfl⟩ := State.push_eq_some_iff.1 hu'
      cases he.symm.trans h
      exact ⟨_, he'⟩
    · have hfull := Nat.le_of_not_lt hroom
      cases (exec_call_of_full hfull).symm.trans h
      exact ⟨slots, exec_call_of_full (s := s.withSlots slots) hfull⟩
  | drw x y n =>
    have hsame : (s.withSlots slots).spriteBytes n = s.spriteBytes n := rfl
    cases hrows : s.spriteBytes n with
    | some rows =>
      cases (exec_drw_of_spriteBytes hrows).symm.trans h
      exact ⟨slots, exec_drw_of_spriteBytes (hsame.trans hrows)⟩
    | none =>
      have hfar := State.not_spriteInRange_iff.2 (State.spriteBytes_eq_none_iff.1 hrows)
      cases (exec_drw_of_not_spriteInRange hfar).symm.trans h
      exact ⟨slots, exec_drw_of_not_spriteInRange (s := s.withSlots slots) hfar⟩
  | seVxKk | sneVxKk | seVxVy | sneVxVy =>
    cases h
    exact ⟨slots, congrArg Host.Outcome.next (State.skipIf_withSlots ..)⟩
  | cls | jp | ldVxKk | addVxKk | ldINnn | ldVxVy | or | and | xor | addVxVy | sub | shr | subn | shl =>
    cases h
    exact ⟨slots, rfl⟩

end Sys2Proof.Machine

namespace Sys2Proof

open Machine

/-- Settles O42: nothing that a step does writes memory. -/
theorem noStepWritesMemory : Obligations.NoStepWritesMemory := by
  intro s t h
  obtain ⟨-, rfl⟩ | ⟨-, _, rfl⟩ | ⟨-, -, rfl | ⟨i, hc⟩⟩ := step_effect h
  · rfl
  · rfl
  · rfl
  · exact hc.mem

/-- Settles O43: of all that a step does, the push alone touches sp and the slots, and the slot it writes is not below
sp. -/
theorem callsAreNeverUndone : Obligations.CallsAreNeverUndone := by
  intro s t h
  obtain ⟨-, rfl⟩ | ⟨-, _, rfl⟩ | ⟨-, -, rfl | ⟨i, hc⟩⟩ := step_effect h
  · exact ⟨.inl rfl, fun _ _ => rfl⟩
  · exact ⟨.inl rfl, fun _ _ => rfl⟩
  · exact ⟨.inl rfl, fun _ _ => rfl⟩
  · obtain ⟨hsp, hslot⟩ | ⟨hsp, -, hslot⟩ := hc.stack_cases
    · exact ⟨.inl (congrArg _ hsp), fun k _ => hslot k⟩
    · exact ⟨.inr hsp, fun k hk => by rw [hslot, if_neg hk.ne']⟩

/-- Settles O37: the latch of an unfaulted machine is written by the raise of a fault and by nothing else. -/
theorem faultsArePrecise : Obligations.FaultsArePrecise := by
  intro s t h0 h f hf
  obtain ⟨hfault, -⟩ | ⟨-, _, rfl⟩ | ⟨-, -, rfl | ⟨i, hc⟩⟩ := step_effect h
  · exact absurd h0 hfault
  · cases hf
    exact ⟨rfl, rfl⟩
  · cases h0.symm.trans hf
  · cases (hc.fault.trans h0).symm.trans hf

/-- Settles O36: the fetch stops, or the word is unlisted, or its instruction raises its fault or completes; one that
completes had a free slot if it is CALL and its sprite in range if it is DRW. -/
theorem faultConditionsAreComplete : Obligations.FaultConditionsAreComplete := by
  intro s t h0 h
  obtain ⟨hfault, -⟩ | ⟨-, hpc, rfl⟩ | ⟨w, -, hf, hd, rfl⟩ | ⟨w, i, -, hf, hd, he⟩ := step_cases h
  · exact absurd h0 hfault
  · exact .inl ⟨rfl, hpc⟩
  · exact .inr (.inr (.inr ⟨h0, w, hf, fun _ hi => absurd (hd.symm.trans hi) nofun,
      fun _ _ _ hi => absurd (hd.symm.trans hi) nofun⟩))
  · obtain ⟨rfl, nnn, rfl, hfull⟩ | ⟨rfl, x, y, n, rfl, hfar⟩ | hc := exec_cases he
    · exact .inr (.inl ⟨rfl, w, nnn, hf, hd, hfull⟩)
    · exact .inr (.inr (.inl ⟨rfl, w, x, y, n, hf, hd, hfar⟩))
    · refine .inr (.inr (.inr ⟨hc.fault.trans h0, w, hf, fun nnn hi => ?_, fun x y n hi => ?_⟩))
      · cases hd.symm.trans hi
        obtain ⟨hroom, -⟩ := State.push_eq_some_iff.1 (hc.push rfl)
        exact hroom
      · cases hd.symm.trans hi
        exact hc.sprite x y n rfl

/-- Settles O44: the fetch reads no slot, and an instruction that finds other slots leaves the same machine beside
them. -/
theorem slotsCannotBeObserved : Obligations.SlotsCannotBeObserved := by
  intro s t slots h
  have hfetch : (s.withSlots slots).fetch = s.fetch := rfl
  obtain ⟨hfault, rfl⟩ | ⟨h0, hpc, rfl⟩ | ⟨w, h0, hf, hd, rfl⟩ | ⟨w, i, h0, hf, hd, he⟩ := step_cases h
  · exact ⟨slots, step_of_fault hfault⟩
  · exact ⟨slots, step_of_fetch_none h0 (hfetch.trans (State.fetch_eq_none_iff.2 hpc))⟩
  · exact ⟨slots, step_of_unlisted h0 (hfetch.trans hf) hd⟩
  · obtain ⟨slots', he'⟩ := exec_withSlots he slots
    exact ⟨slots', (step_of_instr (s := s.withSlots slots) h0 (hfetch.trans hf) hd).trans he'⟩

end Sys2Proof

namespace Sys2Proof.Machine

/-! ### The bounds on reachable values -/

/-- `FETCH_FAULT_MIN` as a number (the spec's decision D7). -/
theorem lt_fetchFaultMin_iff {a : Word} : a < fetchFaultMin ↔ a.toNat < 0xFFE := Iff.rfl

/-- pc stays at most 0x1001: the largest address that executes, and a skip taken there. -/
theorem toNat_le_of_mem_nextPcs {a pc : Word} {i : Instr} (ha : a.toNat < 0xFFE) (h : pc ∈ nextPcs a i) :
    pc.toNat ≤ 0x1001 := by
  have h2 : (a + 2).toNat = a.toNat + 2 := by bv_omega
  have h4 : (a + 4).toNat = a.toNat + 4 := by bv_omega
  cases i with
  | jp nnn | call nnn =>
    rw [List.mem_singleton.1 h, zextAddr_toNat]
    have := nnn.isLt
    omega
  | seVxKk | sneVxKk | seVxVy | sneVxVy =>
    simp only [nextPcs, List.mem_cons, List.not_mem_nil, or_false] at h
    obtain rfl | rfl := h <;> omega
  | cls | ldVxKk | addVxKk | ldINnn | drw | ldVxVy | or | and | xor | addVxVy | sub | shr | subn | shl =>
    rw [List.mem_singleton.1 h]
    omega

/-- Taking a fault keeps the bounds: the latch records the pc, which it leaves. -/
theorem State.Bounded.raise {s : State} (hs : s.Bounded) (cause : Fault) : (s.raise cause).Bounded :=
  { hs with latch := by rintro f ⟨⟩; rfl }

/-- The advance keeps the bounds where the fetch did not stop. -/
theorem State.Bounded.advance {s : State} (hs : s.Bounded) (h0 : s.fault = none) (hpc : s.pc < fetchFaultMin) :
    s.advance.Bounded :=
  { hs with
    counter := toNat_le_of_mem_nextPcs (i := .cls) hpc (List.mem_singleton_self _)
    latch := fun f hf => by cases h0.symm.trans hf }

/-- A completed instruction keeps the bounds: I and pc take a 12-bit operand or a small advance, and a push writes the
advanced pc on the slot that sp then counts. -/
theorem Completes.bounded {i : Instr} {s t : State} (hc : Completes i s t) (hs : s.Bounded) (h0 : s.fault = none)
    (hpc : s.pc < fetchFaultMin) : t.Bounded := by
  rw [lt_fetchFaultMin_iff] at hpc
  have hret : (s.pc + 2).toNat ≤ 0xFFF := by bv_omega
  have hstack : t.sp.toNat ≤ 16 ∧ (∀ k, (t.slot k).toNat ≤ 0xFFF) ∧ ∀ k, t.sp.toNat ≤ k.val → t.slot k = 0 := by
    obtain ⟨hsp, hslot⟩ | ⟨hsp, hroom, hslot⟩ := hc.stack_cases
    · simp only [hsp, hslot]
      exact ⟨hs.pointer, hs.slots, hs.free⟩
    · refine ⟨by omega, fun k => ?_, fun k hk => ?_⟩
      · rw [hslot]
        split
        · exact hret
        · exact hs.slots k
      · rw [hslot, if_neg (by omega)]
        exact hs.free k (by omega)
  obtain ⟨hpointer, hslots, hfree⟩ := hstack
  refine ⟨hc.mem ▸ hs.memory, ?_, hpointer, hslots, hfree, toNat_le_of_mem_nextPcs hpc hc.pc, fun f hf => ?_⟩
  · obtain hI | ⟨nnn, -, hI⟩ := hc.index
    · exact hI ▸ hs.index
    · rw [hI, zextAddr_toNat]
      exact Nat.le_of_lt_succ nnn.isLt
  · cases (hc.fault.trans h0).symm.trans hf

end Sys2Proof.Machine

namespace Sys2Proof

open Machine

/-- Settles O45: each of the things that a step does keeps the bounds. -/
theorem everyStepKeepsTheBounds : Obligations.EveryStepKeepsTheBounds := by
  intro s t hs h
  obtain ⟨-, rfl⟩ | ⟨-, cause, rfl⟩ | ⟨h0, hpc, rfl | ⟨i, hc⟩⟩ := step_effect h
  · exact hs
  · exact hs.raise cause
  · exact hs.advance h0 hpc
  · exact hc.bounded hs h0 hpc

end Sys2Proof
end

section
/-! Memory as the bytes it reads: writing, loading, fetching and reset (20_memory.md, 70_reset_and_hazards.md). -/

namespace Sys2Proof.Machine

/-! ### A read after a write -/

/-- An address that no entry has is not listed. -/
theorem Memory.lookup_eq_none {m : Memory} {a : Nat} (h : ∀ c ∈ m, a < c.1) : m.lookup a = none := by
  induction m with
  | nil => rfl
  | cons c m ih =>
    obtain ⟨hc, hm⟩ := List.forall_mem_cons.1 h
    rw [Memory.lookup, if_neg hc.ne, ih hm]

/-- The byte of an address after an insertion into a list with rising addresses. A byte equal to the blank one is not
listed, and reads the same. -/
theorem Memory.getD_lookup_insert {m : Memory} (h : m.Pairwise (fun c d => c.1 < d.1)) (a b : Nat) (v : Byte) :
    ((m.insert a v).lookup b).getD (Memory.blank b) = if b = a then v else (m.lookup b).getD (Memory.blank b) := by
  induction m with
  | nil =>
    simp only [Memory.insert]
    by_cases hv : v = Memory.blank a <;> by_cases hb : b = a <;> simp [hv, hb, Memory.lookup]
  | cons d m ih =>
    obtain ⟨c, w⟩ := d
    obtain ⟨hd, hm⟩ := List.pairwise_cons.1 h
    rcases Nat.lt_trichotomy a c with hac | rfl | hac
    · have hnone : Memory.lookup ((c, w) :: m) a = none :=
        Memory.lookup_eq_none (List.forall_mem_cons.2 ⟨hac, fun e he => hac.trans (hd e he)⟩)
      rw [Memory.insert, if_pos hac]
      by_cases hv : v = Memory.blank a
      · rw [if_pos hv]
        split_ifs with hb
        · rw [hb, hnone, hv, Option.getD_none]
        · rfl
      · rw [if_neg hv, Memory.lookup]
        split_ifs <;> rfl
    · rw [Memory.insert, if_neg (Nat.lt_irrefl a), if_pos rfl]
      by_cases hv : v = Memory.blank a
      · rw [if_pos hv, Memory.lookup]
        split_ifs with hb
        · rw [hb, Memory.lookup_eq_none hd, hv, Option.getD_none]
        · rfl
      · rw [if_neg hv, Memory.lookup, Memory.lookup]
        split_ifs <;> rfl
    · rw [Memory.insert, if_neg hac.not_gt, if_neg hac.ne', Memory.lookup, Memory.lookup]
      by_cases hb : b = c
      · rw [if_pos hb, if_pos hb, if_neg (hb ▸ hac.ne)]
      · rw [if_neg hb, if_neg hb, ih hm]

/-- R36, R37: the written address reads the byte, and every other address as before. -/
theorem Memory.read_write {m : Memory} (h : m.wf) {a : Nat} (ha : a < 4096) (v : Byte) (b : Nat) :
    (m.write a v).read b = if b = a then some v else m.read b := by
  rw [Memory.write, if_pos ha, Memory.read, Memory.read, Memory.getD_lookup_insert h.1]
  by_cases hb : b = a
  · rw [if_pos hb, if_pos hb, if_pos (hb ▸ ha)]
  · rw [if_neg hb, if_neg hb]

/-- Every address of memory reads a byte. -/
theorem Memory.exists_read_eq_some (m : Memory) {a : Nat} (ha : a < 4096) : ∃ v, m.read a = some v :=
  ⟨_, if_pos ha⟩

/-- The reads after a load: the image from its base on, and elsewhere what was there. -/
theorem Memory.read_load {m : Memory} (h : m.wf) {a : Nat} {bs : List Byte} (ha : a + bs.length ≤ 4096) (b : Nat) :
    (m.load a bs).read b = if a ≤ b ∧ b < a + bs.length then bs[b - a]? else m.read b := by
  induction bs generalizing m a with
  | nil => rw [Memory.load, if_neg (by simp)]
  | cons v bs ih =>
    rw [List.length_cons] at ha ⊢
    rw [Memory.load, ih (Memory.write_wf h a v) (by omega), Memory.read_write h (by omega)]
    rcases Nat.lt_trichotomy b a with hb | rfl | hb
    · rw [if_neg (by omega), if_neg (by omega), if_neg (by omega)]
    · rw [if_neg (by omega), if_pos rfl, if_pos (by omega), Nat.sub_self, List.getElem?_cons_zero]
    · rw [if_neg hb.ne', show b - a = b - (a + 1) + 1 by omega, List.getElem?_cons_succ]
      congr 1
      simp only [eq_iff_iff]
      omega

end Sys2Proof.Machine

namespace Sys2Proof

open Machine

/-- Settles O49: the list of entries is searched after the insertion, and the bound on addresses is the read's own. -/
theorem readAfterWrite : Obligations.ReadAfterWrite :=
  ⟨fun _ _ b v h ha => Memory.read_write h ha v b,
    fun m b => ⟨m.exists_read_eq_some, (m.read_eq_none_iff b).2⟩⟩

end Sys2Proof

namespace Sys2Proof.Machine

/-! ### Fetching -/

/-- Below `FETCH_FAULT_MIN` the fetch joins the two bytes at pc (R71). -/
theorem State.fetch_eq_wordOfBytes {s : State} {byte0 byte1 : Byte} (hpc : s.pc < fetchFaultMin)
    (h0 : s.mem.read s.pc.toNat = some byte0) (h1 : s.mem.read (s.pc.toNat + 1) = some byte1) :
    s.fetch = some (wordOfBytes byte0 byte1) := by
  rw [State.fetch, if_neg (BitVec.not_le.2 hpc)]
  simp only [h0, h1]

/-- A word placed at pc is fetched. -/
theorem State.fetch_placeWord {s : State} (hpc : s.pc < fetchFaultMin) (hmem : s.mem.wf) (w : Word) :
    (s.placeWord w).fetch = some w := by
  have hlt := lt_fetchFaultMin_iff.1 hpc
  have hread := fun b => Memory.read_load hmem (a := s.pc.toNat) (bs := bytesOfWord w) (by simp [bytesOfWord]; omega) b
  rw [State.fetch_eq_wordOfBytes (s := s.placeWord w) (byte0 := w.extractLsb' 8 8) (byte1 := w.extractLsb' 0 8) hpc,
    wordOfBytes_bytes]
  · rw [State.placeWord_mem, State.placeWord_pc, hread]
    simp [bytesOfWord]
  · rw [State.placeWord_mem, State.placeWord_pc, hread]
    simp [bytesOfWord]

/-- The table's word of 16 bits is the word. -/
theorem tableWord_toNat (w : Word) : tableWord 16 w.toNat = w := by
  rw [tableWord, Nat.mod_eq_of_lt w.isLt, BitVec.ofNat_toNat, BitVec.setWidth_eq]

end Sys2Proof.Machine

namespace Sys2Proof

open Machine

/-- Settles O34: both addresses lie inside memory, and a word is its high byte times 256 and its low byte. -/
theorem fetchIsBigEndianAtAnyPc : Obligations.FetchIsBigEndianAtAnyPc := by
  intro s hpc
  obtain ⟨byte0, h0⟩ := s.mem.exists_read_eq_some (a := s.pc.toNat) (by omega)
  obtain ⟨byte1, h1⟩ := s.mem.exists_read_eq_some (a := s.pc.toNat + 1) (by omega)
  refine ⟨byte0, byte1, _, h0, h1, State.fetch_eq_wordOfBytes hpc h0 h1, ?_⟩
  rw [wordOfBytes_toNat, Nat.mul_comm]

/-- Settles O33: the fetch joins the two bytes, and the step executes what the word decodes to. -/
theorem stepRunsTheDecodedInstruction : Obligations.StepRunsTheDecodedInstruction := by
  intro s byte0 byte1 i hfault hpc h0 h1 hdecode _
  rw [decodeBytes, Option.some.injEq, Prod.mk.injEq] at hdecode
  obtain ⟨hd, -⟩ := hdecode
  exact step_of_instr hfault (State.fetch_eq_wordOfBytes hpc h0 h1) hd

/-- Settles O50: the placed word is fetched, and the word of an instruction decodes to it. -/
theorem aPlacedWordIsRunByTheNextStep : Obligations.APlacedWordIsRunByTheNextStep := by
  intro s i h0 hpc hmem
  rw [State.withFetchWord, tableWord_toNat]
  exact step_of_instr h0 (State.fetch_placeWord hpc hmem _) (decodeWord_encode i)

end Sys2Proof

namespace Sys2Proof.Machine

/-! ### Reset -/

theorem State.reset_v (r : Nibble) : State.reset.v r = 0 := by simp [State.v, State.reset]

theorem State.reset_slot (k : Fin Config.stackDepth) : State.reset.slot k = 0 := by simp [State.slot, State.reset]

theorem State.reset_pixel (px : Fin Config.dispW) (py : Fin Config.dispH) : State.reset.pixel px py = false := by
  simp [State.pixel, Disp.get, State.reset]

/-- Memory after reset is zero outside the font table (R32). -/
theorem State.reset_read {a : Nat} (ha : a < 4096) (hfont : ¬(0x050 ≤ a ∧ a ≤ 0x09F)) :
    State.reset.mem.read a = some 0 := by
  have hblank : Memory.blank a = 0 := if_neg (by simp only [Config.fontBase, Config.fontLen]; omega)
  rw [Memory.read, if_pos ha, ← hblank]
  rfl

/-- The state after reset meets the bounds: it lists no byte of memory, and its pc is 0x200. -/
theorem State.reset_bounded : State.reset.Bounded where
  memory := Memory.reset_wf
  index := by decide
  pointer := by decide
  slots := fun k => by rw [State.reset_slot]; decide
  free := fun k _ => State.reset_slot k
  counter := by decide
  latch := nofun

/-- The bounds ask of memory its canonical form alone, so they survive a load. -/
theorem State.Bounded.load {s : State} (hs : s.Bounded) (a : Nat) (bs : List Byte) :
    ({ s with mem := s.mem.load a bs } : State).Bounded :=
  { hs with memory := Memory.load_wf hs.memory a bs }

/-- An image that fits is loaded at 0x200, and one that does not is refused (R153). -/
theorem State.resetWith_eq (program : List Byte) :
    State.resetWith program =
      if program.length ≤ 3584 then some { State.reset with mem := State.reset.mem.load 0x200 program } else none := by
  simp only [State.resetWith, imageWellFormed, decide_eq_true_eq]

end Sys2Proof.Machine

namespace Sys2Proof

open Machine

/-- Settles O46, component by component. -/
theorem resetClearsTheMachine : Obligations.ResetClearsTheMachine :=
  ⟨State.reset_v, rfl, rfl, State.reset_slot, State.reset_pixel, fun _ => State.reset_read, rfl, rfl⟩

/-- Settles O47, bound by bound. -/
theorem resetMeetsTheBounds : Obligations.ResetMeetsTheBounds := State.reset_bounded

/-- Settles O48: the image is loaded into the memory of reset, where it fits below 0x1000. -/
theorem resetLoadsTheProgramVerbatim : Obligations.ResetLoadsTheProgramVerbatim := by
  intro program
  refine ⟨fun hlen => ?_, fun hlen => ?_⟩
  · have hread := Memory.read_load Memory.reset_wf (a := 0x200) (bs := program) (by omega)
    refine ⟨_, (State.resetWith_eq program).trans (if_pos hlen), State.reset_bounded.load 0x200 program,
      fun k hk => ?_, fun a ha => ?_, fun _ => rfl, rfl, ⟨rfl, fun _ => rfl⟩, fun _ _ => rfl, rfl, rfl⟩
    · rw [hread, if_pos (by omega), Nat.add_sub_cancel_left]
    · rw [hread, if_neg ha]
  · rw [State.resetWith_eq, if_neg (by omega)]

end Sys2Proof
end

section
/-! Jumps, calls, the skips on an immediate and the shifts (41_control_flow.md sections 1 to 3, 43_alu.md sections 1, 4
and 5). -/

namespace Sys2Proof.Machine

/-- An unfaulted machine that an instruction left with pc at or above `FETCH_FAULT_MIN` stops at its next fetch (the
spec's decisions D6 and D7). -/
theorem step_of_fetchFaultMin_le {s t : State} (hfault : t.fault = s.fault) (h0 : s.Unfaulted)
    (hpc : fetchFaultMin ≤ t.pc) : step t = .next (t.raise .fetchOutOfRange) :=
  step_of_fetch_none (hfault.trans h0) (State.fetch_eq_none_iff.2 hpc)

/-- JP advances pc and then writes its operand over it. -/
theorem exec_jp (nnn : Addr) (s : State) : exec (.jp nnn) s = .next (s.advance.jump (zextAddr nnn)) := rfl

/-- SE Vx, kk skips on the comparison of V[x] at the start of the step with its operand. -/
theorem exec_seVxKk (x : Nibble) (kk : Byte) (s : State) :
    exec (.seVxKk x kk) s = .next (s.advance.skipIf (s.v x == kk)) := rfl

/-- SNE Vx, kk skips on the opposite comparison. -/
theorem exec_sneVxKk (x : Nibble) (kk : Byte) (s : State) :
    exec (.sneVxKk x kk) s = .next (s.advance.skipIf (s.v x != kk)) := rfl

/-- The next state of an instruction that writes the flag and then shifts V[x] as that write left it: with x = 15 it is
the flag that is shifted (R100, R107, R109). -/
theorem exists_next_of_exec_setV_vf_setV {i : Instr} {s : State} {x : Nibble} {f : Byte} (shift : Byte → Byte)
    (h : exec i s = .next ((s.advance.setV vf f).setV x (shift ((s.advance.setV vf f).v x)))) :
    ∃ t, exec i s = .next t ∧ t.pc = s.pc + 2 ∧ (x ≠ 0xF#4 → t.v x = shift (s.v x) ∧ t.v 0xF#4 = f) ∧
      (x = 0xF#4 → t.v 0xF#4 = shift f) ∧ (∀ r, r ≠ x → r ≠ 0xF#4 → t.v r = s.v r) ∧ SameBeyondRegisters s t := by
  refine ⟨_, h, ?_, fun hx => ⟨?_, ?_⟩, fun hx => ?_, fun r hr hf => ?_,
    (sameBeyondRegisters_setV_advance s vf f).setV x _⟩
  · rw [State.setV_pc, State.setV_pc, State.advance_pc]
  · rw [State.setV_v, if_pos rfl, State.setV_vf_v, if_neg hx, State.advance_v]
  · rw [State.setV_v, if_neg (Ne.symm hx), State.setV_vf_v, if_pos rfl]
  · rw [State.setV_v, if_pos hx.symm, State.setV_vf_v, if_pos hx]
  · rw [State.setV_v, if_neg hr, State.setV_vf_v, if_neg hf, State.advance_v]

/-- SHR halves. -/
theorem ushiftRight_one_toNat (p : Byte) : (p >>> 1).toNat = p.toNat / 2 := by
  rw [BitVec.toNat_ushiftRight, Nat.shiftRight_eq_div_pow, Nat.pow_one]

/-- SHL doubles, modulo 256. -/
theorem shiftLeft_one_toNat (p : Byte) : (p <<< 1).toNat = 2 * p.toNat % 256 := by
  rw [BitVec.toNat_shiftLeft, Nat.shiftLeft_eq, Nat.pow_one, Nat.mul_comm]

/-- A flag shifted right is lost. -/
theorem flagByte_ushiftRight_one (c : Bool) : flagByte c >>> 1 = 0 := by cases c <;> rfl

/-- A flag shifted left is 2 or 0: 2 where bit 7 was set. -/
theorem flagByte_shiftedOutLeft_shiftLeft_one (p : Byte) :
    flagByte (shiftedOutLeft p) <<< 1 = if 128 ≤ p.toNat then 2 else 0 := by
  have := p.isLt
  apply BitVec.eq_of_toNat_eq
  rw [shiftLeft_one_toNat, flagByte_shiftedOutLeft_toNat]
  split
  · rw [show p.toNat / 128 = 1 by omega]; rfl
  · rw [show p.toNat / 128 = 0 by omega]; rfl

/-- An instruction that ends with a write of a flag to VF leaves 0 or 1 there. -/
theorem vf_toNat_le_of_next {s t : State} {c : Bool}
    (h : (.next (s.setV vf (flagByte c)) : Host.Outcome State Fault Refusal) = .next t) : (t.v 0xF#4).toNat ≤ 1 := by
  cases h
  rw [State.setV_vf_v, if_pos rfl]
  exact flagByte_toNat_le c

end Sys2Proof.Machine

namespace Sys2Proof

open Machine

/-- Settles O2: the word is 0x2nnn in format NNN, the push writes slot sp and counts it, and the jump writes pc. -/
theorem callPushesTheAdvancedPc : Obligations.CallPushesTheAdvancedPc := by
  intro nnn s
  refine ⟨?_, fun hroom => ?_⟩
  · rw [ofNat_eq_formatNnn 0x2 nnn 0x2000 rfl]
    exact decodeWord_encode (.call nnn)
  · obtain ⟨u, hu, he⟩ := exec_call_of_room (nnn := nnn) hroom
    have hsp := State.push_sp hu
    have hslot := State.push_slot hu
    obtain ⟨_, rfl⟩ := State.push_eq_some_iff.1 hu
    refine ⟨_, he, zextAddr_toNat nnn, hsp, fun k => ?_, fun _ => rfl, rfl, fun _ => rfl, fun _ _ => rfl, rfl⟩
    rw [State.jump_slot, hslot, State.advance_sp, State.advance_slot]
    simp only [eq_comm]

/-- Settles O3: the push fails on a full stack. -/
theorem callOnAFullStackRaisesStackOverflow : Obligations.CallOnAFullStackRaisesStackOverflow :=
  fun _ _ hfull => exec_call_of_full hfull

/-- Settles O1: the word is 0x1nnn in format NNN, and the step writes pc alone. -/
theorem jpSetsPcToItsOperand : Obligations.JpSetsPcToItsOperand := by
  intro nnn s
  refine ⟨?_, _, exec_jp nnn s, ?_, fun _ => rfl, sameBeyondRegisters_advance s, step_of_fetchFaultMin_le rfl⟩
  · rw [ofNat_eq_formatNnn 0x1 nnn 0x1000 rfl]
    exact decodeWord_encode (.jp nnn)
  · rw [State.jump_pc, zextAddr_toNat]

/-- Settles O4: the word is 0x3xkk in format XKK, and the step is a skip on equality, whose pc and frame are known. -/
theorem seImmediateSkipsOnEqual : Obligations.SeImmediateSkipsOnEqual := by
  intro x kk s
  refine ⟨?_, _, exec_seVxKk x kk s, ?_, sameRegisters_skipIf_advance s _, sameBeyondRegisters_skipIf_advance s _,
    step_of_fetchFaultMin_le (s.advance.skipIf_fault _)⟩
  · rw [ofNat_eq_formatXkk 0x3 x kk 0x3000 rfl]
    exact decodeWord_encode (.seVxKk x kk)
  · simp only [State.skipIf_advance_pc, beq_iff_eq]

/-- Settles O5: the word is 0x4xkk in format XKK, and the step is a skip on inequality, whose pc and frame are known. -/
theorem sneImmediateSkipsOnNotEqual : Obligations.SneImmediateSkipsOnNotEqual := by
  intro x kk s
  refine ⟨?_, _, exec_sneVxKk x kk s, ?_, sameRegisters_skipIf_advance s _, sameBeyondRegisters_skipIf_advance s _,
    step_of_fetchFaultMin_le (s.advance.skipIf_fault _)⟩
  · rw [ofNat_eq_formatXkk 0x4 x kk 0x4000 rfl]
    exact decodeWord_encode (.sneVxKk x kk)
  · simp only [State.skipIf_advance_pc, bne_iff_ne, ne_eq, ite_not]

/-- Settles O18: the word is 0x8xy6, and the step writes bit 0 to VF and then halves V[x]; with x = 15 it halves the
flag. -/
theorem shrHalvesVxAndVfIsBitZero : Obligations.ShrHalvesVxAndVfIsBitZero := by
  intro x y s
  obtain ⟨t, ht, hpc, hne, heq, hothers, hframe⟩ :=
    exists_next_of_exec_setV_vf_setV (i := .shr x y) (s := s) (x := x) (· >>> 1) rfl
  refine ⟨decodeWord_8xyn x y 0x6 _ rfl, t, ht, hpc, fun hx => ?_, fun hx => ?_, hothers, hframe⟩
  · obtain ⟨hvx, hvf⟩ := hne hx
    rw [hvx, hvf, ushiftRight_one_toNat, flagByte_shiftedOutRight_toNat]
    exact ⟨rfl, rfl⟩
  · rw [heq hx, flagByte_ushiftRight_one]

/-- Settles O19: the word is 0x8xyE, and the step writes bit 7 to VF and then doubles V[x]; with x = 15 it doubles the
flag. -/
theorem shlDoublesVxAndVfIsBitSeven : Obligations.ShlDoublesVxAndVfIsBitSeven := by
  intro x y s
  obtain ⟨t, ht, hpc, hne, heq, hothers, hframe⟩ :=
    exists_next_of_exec_setV_vf_setV (i := .shl x y) (s := s) (x := x) (· <<< 1) rfl
  refine ⟨decodeWord_8xyn x y 0xE _ rfl, t, ht, hpc, fun hx => ?_, fun hx => ?_, hothers, hframe⟩
  · obtain ⟨hvx, hvf⟩ := hne hx
    rw [hvx, hvf, shiftLeft_one_toNat, flagByte_shiftedOutLeft_toNat]
    exact ⟨rfl, rfl⟩
  · rw [heq hx, flagByte_shiftedOutLeft_shiftLeft_one, hx]

/-- Settles O20: ADD, SUB and SUBN end with the write of a flag, and the shifts end with VF as O18 and O19 say. -/
theorem aluFlagsAreZeroOrOne : Obligations.AluFlagsAreZeroOrOne := by
  intro x y s t
  refine ⟨?_, fun h => ?_⟩
  · rintro (h | h | h | h | ⟨hx, h⟩)
    · exact vf_toNat_le_of_next ((exec_addVxVy x y s).symm.trans h)
    · exact vf_toNat_le_of_next ((exec_sub x y s).symm.trans h)
    · exact vf_toNat_le_of_next ((exec_subn x y s).symm.trans h)
    · obtain ⟨-, u, hu, -, hne, heq, -⟩ := shrHalvesVxAndVfIsBitZero x y s
      cases hu.symm.trans h
      by_cases hx : x = 0xF#4
      · rw [heq hx]
        decide
      · rw [(hne hx).2]
        omega
    · obtain ⟨-, u, hu, -, hne, -⟩ := shlDoublesVxAndVfIsBitSeven x y s
      cases hu.symm.trans h
      have := (s.v x).isLt
      rw [(hne hx).2]
      omega
  · obtain ⟨-, u, hu, -, -, heq, -⟩ := shlDoublesVxAndVfIsBitSeven 0xF#4 y s
    cases hu.symm.trans h
    rw [heq rfl]
    split
    · exact .inr rfl
    · exact .inl rfl

/-- Settles O32, by the decoder evaluated on the thirteen words. -/
theorem sampleWordsDecode : Obligations.SampleWordsDecode := by
  unfold Obligations.SampleWordsDecode
  decide

end Sys2Proof
end

section
/-! Drawing a sprite in closed form: one sprite bit, then a row, then all rows, each the exclusive or with the bits it
lays over the display (44_display.md section 2, R121 to R125). -/

namespace Sys2Proof.Machine

/-! ### Laying bits over a canvas -/

/-- A bit for each pixel of the grid, to be laid over it. -/
abbrev Layer := Fin Config.dispW → Fin Config.dispH → Bool

/-- The canvas `d` is `c` with a layer composited: every pixel its exclusive or with the bit over it, and a collision
where a set bit lay over a set pixel. -/
structure Composites (layer : Layer) (c d : Canvas) : Prop where
  get : ∀ qx qy, d.disp.get qx qy = (c.disp.get qx qy ^^ layer qx qy)
  hit : d.hit = true ↔ c.hit = true ∨ ∃ qx qy, c.disp.get qx qy = true ∧ layer qx qy = true

/-- A layer without a set bit changes nothing. -/
theorem Composites.of_clear {layer : Layer} (h : ∀ qx qy, layer qx qy = false) (c : Canvas) : Composites layer c c where
  get := by simp [h]
  hit := by simp [h]

/-- The union of two bits that are not both set is their exclusive or. -/
theorem eq_xor_of_disjoint {a b c : Bool} (hdisj : b = true → ¬ c = true) (hunion : a = true ↔ b = true ∨ c = true) :
    a = (b ^^ c) := by
  revert a b c
  decide

/-- Two layers with no set bit over the same pixel, one after the other: the second finds the pixels under its set bits
as they were before the first. -/
theorem Composites.trans {layer₁ layer₂ layer : Layer} {c d e : Canvas} (h₁ : Composites layer₁ c d)
    (h₂ : Composites layer₂ d e) (hdisj : ∀ qx qy, layer₁ qx qy = true → ¬ layer₂ qx qy = true)
    (hunion : ∀ qx qy, layer qx qy = true ↔ layer₁ qx qy = true ∨ layer₂ qx qy = true) : Composites layer c e where
  get qx qy := by
    rw [h₂.get, h₁.get, Bool.xor_assoc, eq_xor_of_disjoint (hdisj qx qy) (hunion qx qy)]
  hit := by
    have hunder : ∀ qx qy, layer₂ qx qy = true → d.disp.get qx qy = c.disp.get qx qy := by
      intro qx qy h
      have hno : layer₁ qx qy = false := Bool.eq_false_iff.2 fun hyes => hdisj qx qy hyes h
      rw [h₁.get, hno, Bool.xor_false]
    have hlater : (∃ qx qy, d.disp.get qx qy = true ∧ layer₂ qx qy = true) ↔
        ∃ qx qy, c.disp.get qx qy = true ∧ layer₂ qx qy = true :=
      exists_congr fun qx => exists_congr fun qy => and_congr_left fun h => by rw [hunder qx qy h]
    rw [h₂.hit, h₁.hit, hlater]
    simp only [hunion, and_or_left, exists_or, or_assoc]

/-! ### The bits of a sprite -/

/-- The bits `i` to `i + k - 1` of a sprite byte, over the row `py` from column `xpos + i` on. -/
def bitsLayer (xpos py : Nat) (b : Byte) (i k : Nat) : Layer := fun qx qy =>
  decide (py = qy.val ∧ xpos + i ≤ qx.val ∧ qx.val < xpos + i + k) && spriteBit b (qx.val - xpos)

theorem bitsLayer_iff {xpos py : Nat} {b : Byte} {i k : Nat} {qx : Fin Config.dispW} {qy : Fin Config.dispH} :
    bitsLayer xpos py b i k qx qy = true ↔
      (py = qy.val ∧ xpos + i ≤ qx.val ∧ qx.val < xpos + i + k) ∧ spriteBit b (qx.val - xpos) = true := by
  rw [bitsLayer, Bool.and_eq_true, decide_eq_true_iff]

/-- The rows of a sprite, from row `py` down, eight bits each from column `xpos` on. -/
def rowsLayer (xpos py : Nat) (rows : List Byte) : Layer := fun qx qy =>
  decide (py ≤ qy.val ∧ xpos ≤ qx.val ∧ qx.val < xpos + 8) &&
    (rows[qy.val - py]?).any fun b => spriteBit b (qx.val - xpos)

theorem rowsLayer_iff {xpos py : Nat} {rows : List Byte} {qx : Fin Config.dispW} {qy : Fin Config.dispH} :
    rowsLayer xpos py rows qx qy = true ↔ (py ≤ qy.val ∧ xpos ≤ qx.val ∧ qx.val < xpos + 8) ∧
      ∃ b, rows[qy.val - py]? = some b ∧ spriteBit b (qx.val - xpos) = true := by
  rw [rowsLayer, Bool.and_eq_true, decide_eq_true_iff, Option.any_eq_true]

/-- One bit of a sprite byte lies over the pixel at its coordinates. -/
theorem bitsLayer_one_iff {xpos py : Nat} {b : Byte} {i : Nat} {qx : Fin Config.dispW} {qy : Fin Config.dispH} :
    bitsLayer xpos py b i 1 qx qy = true ↔ spriteBit b i = true ∧ xpos + i = qx.val ∧ py = qy.val := by
  rw [bitsLayer_iff]
  constructor
  · rintro ⟨⟨hy, hle, hlt⟩, hb⟩
    obtain rfl : i = qx.val - xpos := by omega
    exact ⟨hb, by omega, hy⟩
  · rintro ⟨hb, hx, hy⟩
    obtain rfl : i = qx.val - xpos := by omega
    exact ⟨⟨hy, by omega, by omega⟩, hb⟩

/-- Drawing one bit composites it (R125). -/
theorem composites_drawBit (c : Canvas) (xpos py i : Nat) (b : Byte) :
    Composites (bitsLayer xpos py b i 1) c (drawBit c (xpos + i) py (spriteBit b i)) where
  get qx qy := by
    rw [drawBit_get]
    congr 1
    rw [Bool.eq_iff_iff, bitsLayer_one_iff, Bool.and_eq_true, decide_eq_true_iff]
  hit := by
    rw [drawBit_hit]
    simp only [bitsLayer_one_iff]
    tauto

/-- Drawing bits of a row in ascending order composites them, since no two lie over one pixel. -/
theorem composites_drawBits (xpos py : Nat) (b : Byte) (i k : Nat) (c : Canvas) :
    Composites (bitsLayer xpos py b i k) c (drawBits xpos py b i k c) := by
  induction k generalizing i c with
  | zero =>
    refine Composites.of_clear (fun qx qy => Bool.eq_false_iff.2 fun h => ?_) c
    obtain ⟨⟨-, hle, hlt⟩, -⟩ := bitsLayer_iff.1 h
    omega
  | succ k ih =>
    refine (composites_drawBit c xpos py i b).trans (ih (i + 1) _) (fun qx qy h₁ h₂ => ?_) fun qx qy => ?_
    · obtain ⟨⟨-, -, hlt⟩, -⟩ := bitsLayer_iff.1 h₁
      obtain ⟨⟨-, hle, -⟩, -⟩ := bitsLayer_iff.1 h₂
      omega
    · rw [bitsLayer_iff, bitsLayer_iff, bitsLayer_iff, ← or_and_right]
      exact and_congr_left fun _ => by omega

/-- Drawing rows downwards composites them. -/
theorem composites_drawRows (xpos py : Nat) (rows : List Byte) (c : Canvas) :
    Composites (rowsLayer xpos py rows) c (drawRows xpos py rows c) := by
  induction rows generalizing py c with
  | nil => exact Composites.of_clear (fun qx qy => by simp [rowsLayer]) c
  | cons b rows ih =>
    refine (composites_drawBits xpos py b 0 8 c).trans (ih (py + 1) _) (fun qx qy h₁ h₂ => ?_) fun qx qy => ?_
    · obtain ⟨⟨hy, -, -⟩, -⟩ := bitsLayer_iff.1 h₁
      obtain ⟨⟨hle, -, -⟩, -⟩ := rowsLayer_iff.1 h₂
      omega
    · rw [rowsLayer_iff, rowsLayer_iff, bitsLayer_iff]
      rcases Nat.lt_trichotomy qy.val py with hy | hy | hy
      · have h1 : ¬ py ≤ qy.val := by omega
        have h2 : ¬ py = qy.val := by omega
        have h3 : ¬ py + 1 ≤ qy.val := by omega
        simp [h1, h2, h3]
      · have h3 : ¬ py + 1 ≤ qy.val := by omega
        simp [hy]
      · have h2 : ¬ py = qy.val := by omega
        rw [show qy.val - py = qy.val - (py + 1) + 1 by omega, List.getElem?_cons_succ]
        simp [h2, hy.le, Nat.succ_le_of_lt hy]

/-- The sprite's bit over a pixel, spelt out. -/
theorem State.spriteOver_iff {s : State} {x y n : Nibble} {qx : Fin Config.dispW} {qy : Fin Config.dispH} :
    s.spriteOver x y n qx qy = true ↔
      ((s.v x).toNat % 64 ≤ qx.val ∧ qx.val < (s.v x).toNat % 64 + 8 ∧
        (s.v y).toNat % 32 ≤ qy.val ∧ qy.val < (s.v y).toNat % 32 + n.toNat) ∧
      ∃ b, s.mem.read (s.I.toNat + (qy.val - (s.v y).toNat % 32)) = some b ∧
        spriteBit b (qx.val - (s.v x).toNat % 64) = true := by
  unfold State.spriteOver spriteBit
  dsimp only
  split_ifs with h
  · cases s.mem.read (s.I.toNat + (qy.val - (s.v y).toNat % 32)) <;> simp [h]
  · simp [h]

/-- The rows that DRW reads, as a layer, are the sprite's bits over the pixels (R121, R124). -/
theorem rowsLayer_spriteBytes {s : State} {x y n : Nibble} {rows : List Byte} (h : s.spriteBytes n = some rows) :
    rowsLayer (startColumn (s.v x)) (startRow (s.v y)) rows = s.spriteOver x y n := by
  obtain ⟨hlen, hread⟩ := Memory.readRun_spec h
  funext qx qy
  rw [Bool.eq_iff_iff, rowsLayer_iff, State.spriteOver_iff]
  simp only [startColumn, startRow, Config.dispW, Config.dispH]
  constructor
  · rintro ⟨⟨hy, hle, hlt⟩, b, hb, hbit⟩
    have hrow : qy.val - (s.v y).toNat % 32 < n.toNat := hlen ▸ (List.getElem?_eq_some_iff.1 hb).1
    exact ⟨⟨hle, hlt, hy, by omega⟩, b, (hread _ hrow).trans hb, hbit⟩
  · rintro ⟨⟨hle, hlt, hy, hrow⟩, b, hb, hbit⟩
    exact ⟨⟨hy, hle, hlt⟩, b, (hread _ (by omega)).symm.trans hb, hbit⟩

/-- A sprite in range can be read. -/
theorem State.exists_spriteBytes {s : State} {n : Nibble} (h : s.SpriteInRange n) :
    ∃ rows, s.spriteBytes n = some rows :=
  Option.ne_none_iff_exists'.1 fun hnone => State.not_spriteInRange_iff.2 (State.spriteBytes_eq_none_iff.1 hnone) h

/-- DRW with its rows inside memory composites the sprite over the display, from no collision, and writes VF last. -/
theorem exec_drw_composites {x y n : Nibble} {s : State} (h : s.SpriteInRange n) :
    ∃ d : Canvas, exec (.drw x y n) s = .next ((s.advance.setDisp d.disp).setV vf (flagByte d.hit)) ∧
      Composites (s.spriteOver x y n) ⟨s.disp, false⟩ d := by
  obtain ⟨rows, hrows⟩ := State.exists_spriteBytes h
  exact ⟨_, exec_drw_of_spriteBytes hrows, rowsLayer_spriteBytes hrows ▸ composites_drawRows ..⟩

/-- The sprite's bits depend on its coordinates, I and memory. -/
theorem State.spriteOver_congr {s t : State} {x y : Nibble} (n : Nibble) (hx : t.v x = s.v x) (hy : t.v y = s.v y)
    (hI : t.I = s.I) (hmem : SameMemory s t) : t.spriteOver x y n = s.spriteOver x y n := by
  funext qx qy
  rw [Bool.eq_iff_iff, State.spriteOver_iff, State.spriteOver_iff, hx, hy, hI, hmem]

end Sys2Proof.Machine

namespace Sys2Proof

open Machine

/-- Settles O22: the word is 0xDxyn in format XYN, and the step composites the sprite over a canvas without a
collision, whose collision it writes to VF. -/
theorem drwCompositesTheClippedSprite : Obligations.DrwCompositesTheClippedSprite := by
  intro x y n s
  refine ⟨?_, fun hrange => ?_⟩
  · rw [ofNat_eq_formatXyn 0xD x y n 0xD000 rfl]
    exact decodeWord_encode (.drw x y n)
  · obtain ⟨d, he, hd⟩ := exec_drw_composites (x := x) (y := y) hrange
    have hhit : d.hit = true ↔ ∃ px py, s.pixel px py = true ∧ s.spriteOver x y n px py = true := by
      rw [hd.hit]
      simp [State.pixel]
    refine ⟨_, he, rfl, fun px py => hd.get px py, ?_, fun r hr => ?_, rfl, ⟨rfl, fun _ => rfl⟩, fun _ => rfl, rfl⟩
    · rw [State.setV_vf_v, if_pos rfl]
      cases hit : d.hit with
      | true => exact .inl ⟨rfl, hhit.1 hit⟩
      | false =>
        rw [hit] at hhit
        exact .inr ⟨rfl, fun px py hpx => Bool.eq_false_iff.2 fun hbit => absurd (hhit.2 ⟨px, py, hpx, hbit⟩) nofun⟩
    · rw [State.setV_vf_v, if_neg hr, State.setDisp_v, State.advance_v]

/-- Settles O23: the read of the rows stops before anything is written. -/
theorem drwBeyondMemoryRaisesDataReadOutOfRange : Obligations.DrwBeyondMemoryRaisesDataReadOutOfRange :=
  fun _ _ _ _ hn hfar => exec_drw_of_not_spriteInRange (State.not_spriteInRange_iff.2 ⟨hn, hfar⟩)

/-- Settles O24: the second draw lays the same bits over the display that the first left, so each pixel is toggled
twice, and a set bit lies over a set pixel where it lay over an unset one before. -/
theorem drawingTwiceRestoresTheDisplay : Obligations.DrawingTwiceRestoresTheDisplay := by
  intro x y n s hx hy hrange
  obtain ⟨t, ht, -, hpixel, -, hothers, hI, -, hmem, -⟩ := (drwCompositesTheClippedSprite x y n s).2 hrange
  have hsame := State.spriteOver_congr n (hothers x hx) (hothers y hy) hI hmem
  have hrange' : t.SpriteInRange n := by rwa [State.SpriteInRange, hI]
  obtain ⟨u, hu, -, hpixel', hvf, -⟩ := (drwCompositesTheClippedSprite x y n t).2 hrange'
  have htoggled : ∀ px py, t.pixel px py = true ∧ t.spriteOver x y n px py = true ↔
      s.spriteOver x y n px py = true ∧ s.pixel px py = false := by
    intro px py
    rw [hsame, hpixel]
    cases s.pixel px py <;> cases s.spriteOver x y n px py <;> decide
  refine ⟨t, u, ht, hu, fun px py => ?_, ?_⟩
  · rw [hpixel', hsame, hpixel, Bool.xor_assoc, Bool.xor_self, Bool.xor_false]
  · simp only [← htoggled]
    obtain ⟨hone, hcollides⟩ | ⟨hzero, hclear⟩ := hvf
    · exact ⟨fun _ => hcollides, fun _ => hone⟩
    · refine ⟨fun hone => absurd (hzero.symm.trans hone) (by decide), fun ⟨px, py, hpx, hbit⟩ => ?_⟩
      exact absurd hbit (Bool.eq_false_iff.1 (hclear px py hpx))

end Sys2Proof
end
